-- ==== Sys2Proof/Word.lean ====
section
/-! DEFINITION. The word types of the KHC HashEngine (00_scope.md R14, 20_memory.md R50). -/

namespace Sys2Proof

/-- A byte is 8 bits (R14). -/
abbrev Byte := BitVec 8

/-- The value of a register, of a command word and of the write data of a request: 32 bits (R28 to R32, R83). -/
abbrev Word := BitVec 32

/-- A host byte address: `ADDR_W = 19` bits (R50, R85). -/
abbrev Addr := BitVec 19

end Sys2Proof
end

