-- ==== Sys2Proof/Syntax.lean ====
section
/-! DEFINITION. The operations of the KHC HashEngine: one constructor per row of spec/opcode_table.json (30_encoding.md R92). -/

namespace Sys2Proof

/-- The operations. RD8 to WR32 are host bus requests (format B), NOP to CLR are command words (format C), EXPAND to
REDUCE are the stage steps PHASE selects (format S). A write keeps its whole 32-bit `wdata` (R83). -/
inductive Instr where
  /-- Host byte read (41_host_commands.md R127). -/
  | rd8 (addr : Addr)
  /-- Host 32-bit read (R128). -/
  | rd32 (addr : Addr)
  /-- Host byte write; uses `wdata[7:0]` (R129). -/
  | wr8 (addr : Addr) (wdata : Word)
  /-- Host 32-bit write (R130). -/
  | wr32 (addr : Addr) (wdata : Word)
  /-- Command word 0 (R122). -/
  | nop
  /-- Command word 1, the source's `prepare_work` (R123). -/
  | prep
  /-- Command word 2, the entry of the source's `compute_digest` (R124). -/
  | hash
  /-- Command word 3 (R125). -/
  | clr
  /-- Stage code 1 (40_pipeline.md R103). -/
  | expand
  /-- Stage code 2 (R105). -/
  | revcopy
  /-- Stage code 3 (R107). -/
  | reduce
deriving DecidableEq, Repr

end Sys2Proof
end

