-- ==== Sys2Proof/Decode.lean ====
section
/-! DEFINITION. Decoding and encoding of the three encoded formats (30_encoding.md R80 to R92). -/

namespace Sys2Proof

/-- Why an encoding selects no operation (R88). -/
inductive DecodeError where
  /-- A bus request with `size` 01 or 11. -/
  | reservedSize
  /-- A command word other than 0 to 3. -/
  | illegalCommand
  /-- A value of PHASE that selects no stage step: IDLE, DONE, FAULT and the codes 6 and 7, which never occur. -/
  | noStageStep
deriving DecidableEq, Repr

/-- An encoded operation: a request header with its write data (format B, R83), a command word (format C, R81), or a
stage code (format S, R86). -/
inductive Encoded where
  | request (header : BitVec 22) (wdata : Word)
  | command (word : Word)
  | stage (code : BitVec 3)
deriving DecidableEq, Repr

/-- The four commands of R82. -/
inductive Command where
  | nop
  | prep
  | hash
  | clr
deriving DecidableEq, Repr

/-- The operation a command is. -/
def Command.instr : Command → Instr
  | .nop => .nop
  | .prep => .prep
  | .hash => .hash
  | .clr => .clr

/-- The command word decoder (R82): the upper 24 bits first, then `op`. -/
def decodeCommand (w : Word) : Except DecodeError Command :=
  if w.extractLsb' 8 24 ≠ 0 then .error .illegalCommand
  else match (w.extractLsb' 0 8).toNat with
    | 0 => .ok .nop
    | 1 => .ok .prep
    | 2 => .ok .hash
    | 3 => .ok .clr
    | _ => .error .illegalCommand

/-- The bus request decoder (R83, R84): `w` is bit 21, `size` is bits 20:19, `addr` is bits 18:0. -/
def decodeRequest (header : BitVec 22) (wdata : Word) : Except DecodeError Instr :=
  let addr := header.extractLsb' 0 19
  match (header.extractLsb' 21 1).toNat, (header.extractLsb' 19 2).toNat with
  | 0, 0 => .ok (.rd8 addr)
  | 0, 2 => .ok (.rd32 addr)
  | 1, 0 => .ok (.wr8 addr wdata)
  | 1, 2 => .ok (.wr32 addr wdata)
  | _, _ => .error .reservedSize

/-- The stage decoder (R86). -/
def decodeStage (code : BitVec 3) : Except DecodeError Instr :=
  match code.toNat with
  | 1 => .ok .expand
  | 2 => .ok .revcopy
  | 3 => .ok .reduce
  | _ => .error .noStageStep

/-- The decoder, total on every encoding. -/
def decode : Encoded → Except DecodeError Instr
  | .request header wdata => decodeRequest header wdata
  | .command w => (decodeCommand w).map Command.instr
  | .stage code => decodeStage code

/-- A request header from its three fields (R83). -/
def requestHeader (w : BitVec 1) (size : BitVec 2) (addr : Addr) : BitVec 22 :=
  BitVec.ofNat 22 (2 ^ 21 * w.toNat + 2 ^ 19 * size.toNat + addr.toNat)

/-- A command word from its `op` (R81): bits 31:8 are zero. -/
def commandWord (op : BitVec 8) : Word := op.setWidth 32

/-- The encoder. A read's `wdata` is not used (R83) and is written as zero. -/
def encode : Instr → Encoded
  | .rd8 addr => .request (requestHeader 0#1 0b00#2 addr) 0
  | .rd32 addr => .request (requestHeader 0#1 0b10#2 addr) 0
  | .wr8 addr wdata => .request (requestHeader 1#1 0b00#2 addr) wdata
  | .wr32 addr wdata => .request (requestHeader 1#1 0b10#2 addr) wdata
  | .nop => .command (commandWord 0x00#8)
  | .prep => .command (commandWord 0x01#8)
  | .hash => .command (commandWord 0x02#8)
  | .clr => .command (commandWord 0x03#8)
  | .expand => .stage 0b001#3
  | .revcopy => .stage 0b010#3
  | .reduce => .stage 0b011#3

/-- The encoded operation whose bits are `w`, by the length of its format (R89): 3 bits are a stage code, 22 a request
header, 32 a command word, 54 a request header with its write data above it. A length is also read in whole bytes,
its pad bits then being zero; a request whose length leaves out `wdata` has `wdata = 0` (DESIGN CHOICE, log 16). -/
def tableWord (nbits w : Nat) : Option Encoded :=
  if nbits = 3 ∨ nbits = 8 then
    if w < 2 ^ 3 then some (.stage (BitVec.ofNat 3 w)) else none
  else if nbits = 22 ∨ nbits = 24 then
    if w < 2 ^ 22 then some (.request (BitVec.ofNat 22 w) 0) else none
  else if nbits = 32 then
    if w < 2 ^ 32 then some (.command (BitVec.ofNat 32 w)) else none
  else if nbits = 54 ∨ nbits = 56 then
    if w < 2 ^ 54 then some (.request (BitVec.ofNat 22 w) (BitVec.ofNat 32 (w / 2 ^ 22))) else none
  else none

/-- The instruction the decoder reads from an encoding whose bits are `w`. -/
def decodeTableWord (nbits w : Nat) : Option Instr :=
  (tableWord nbits w).bind fun e => (decode e).toOption

end Sys2Proof
end

