-- ==== Sys2Proof/Config.lean ====
section
/-! DEFINITION. What an instantiation fixes and no step changes (00_scope.md R5 to R11, 10_state.md R39), and the free values. -/

namespace Sys2Proof

/-- `KPOW_MUL`, the number of chunks of a scratchpad (R5). -/
def KPOW_MUL : Nat := 546

/-- `KSHAKE320_L`, the output length in bits of the final reduction (R5). -/
def KSHAKE320_L : Nat := 320

/-- `DIGEST_BYTES = KSHAKE320_L / 8` (R5). -/
def DIGEST_BYTES : Nat := KSHAKE320_L / 8

/-- The byte order in which header bytes 0 to 3 form the version (R9). -/
inductive VerOrder where
  | le
  | be
deriving DecidableEq, Repr, Inhabited

/-- The two header lengths R8 and R11 admit: `KPROOF_OF_WORK_SZ` or `KRATE`. -/
inductive HdrSize where
  | scratchpad
  | rate
deriving DecidableEq, Repr, Inhabited

/-- One instantiation of the open parameters, with the free values of the power-up draw (R181). Every value of this
type meets the constraints of R11, and every instantiation R11 admits is a value of it. -/
structure Params where
  /-- `KRATE - 1`, so that `1 <= KRATE <= 480` (R6, R11). -/
  kratePred : Fin 480
  /-- The choice of `HDR_BYTES` (R8). -/
  hdrSize : HdrSize
  /-- `VER_ORDER` (R9). -/
  verOrder : VerOrder
  /-- The SpongeHash primitive on the bytes it reads: `none` is `fail`, an answer has exactly `outBytes` bytes
  (42_sponge_primitive.md R142). Nothing else is known of it (R147). -/
  primitive : List Byte → Nat → (outBytes : Nat) → Option (Vector Byte outBytes)
  /-- WORK byte `k` as power-up left it (R181; 93_implementation_defined.md U4). -/
  workInit : Nat → Byte
  /-- HDR byte `k` as power-up left it (R181, U4). -/
  hdrInit : Nat → Byte
deriving Inhabited

/-- `KRATE` (R6). -/
def Params.krate (P : Params) : Nat := P.kratePred.val + 1

/-- `PSZ = KPROOF_OF_WORK_SZ = KPOW_MUL * KRATE` (R7). -/
def Params.psz (P : Params) : Nat := KPOW_MUL * P.krate

/-- `HDR_BYTES` (R8). R11 asks `4 <= HDR_BYTES`, so `KRATE` is taken only where it is at least 4 (DEDUCED, log 2). -/
def Params.hdrBytes (P : Params) : Nat :=
  if P.hdrSize = .rate ∧ 4 ≤ P.krate then P.krate else P.psz

/-- The one instantiation `exec` and `step` run. It has no body: KRATE, HDR_BYTES, VER_ORDER, SPONGE and the power-up
draw are open (R6, R8, R9, R10, R181), so whatever is proved of it holds for every instantiation (log 1 to 6). -/
opaque Config.params : Params

end Sys2Proof
end

