-- ==== Sys2Proof/Machine/State.lean ====
section
/-! DEFINITION. The state (10_state.md R21), the reasons a step can stop, and the state after reset (R40). -/

namespace Sys2Proof.Machine

/-- PHASE, the sequencer position (R22). An inductive type, as R86 allows; its code is `Phase.code`. -/
inductive Phase where
  | idle
  | expand
  | reorder
  | reduce
  | done
  | fault
deriving DecidableEq, Repr

/-- ERR, the code of the fault that put the engine in FAULT (R27); its number is `Err.code`. -/
inductive Err where
  | none
  | invalidInput
  | primitiveFailure
deriving DecidableEq, Repr

/-- The bytes of the host space that can be stored to, the WORK window (R34, R51): cells keyed by host address,
addresses strictly rising, no cell equal to what an unlisted address reads as (`Memory.wf`). -/
abbrev Memory := List Host.Cell

/-- The 546 chunks of scratchpad 2; each holds no value or `KRATE` bytes (R37). -/
abbrev Chunks := Vector (Option (List Byte)) 546

/-- The complete architectural state of one engine, the table of R21. -/
structure Engine where
  /-- PHASE (R22). -/
  phase : Phase
  /-- CHUNK (R23). -/
  chunk : BitVec 10
  /-- PREP_OK (R24). -/
  prepOk : Bool
  /-- BRANCH (R25). -/
  branch : Bool
  /-- ILL (R26). -/
  ill : Bool
  /-- ERR (R27). -/
  err : Err
  /-- WORK_LEN (R30). -/
  workLen : Word
  /-- HDR_LEN (R31). -/
  hdrLen : Word
  /-- VERSION (R32). -/
  version : Word
  /-- DIGEST (R33). -/
  digest : Vector Byte 40
  /-- WORK (R34). -/
  work : Memory
  /-- HDR, `HDR_BYTES` bytes (R35). -/
  hdr : List Byte
  /-- SP1, no value or `PSZ` bytes (R36). -/
  sp1 : Option (List Byte)
  /-- SP2 (R37). -/
  sp2 : Chunks
deriving DecidableEq, Repr

/-- The response to a bus request (30_encoding.md R83); a byte read returns 8 bits, a word read 32 bits. -/
inductive Response where
  | ok
  | ok8 (value : Byte)
  | ok32 (value : Word)
  | buserr
deriving DecidableEq, Repr

/-- One line of the host script, in the total order of 20_memory.md R63: a bus request, the RESET event, or the mark
`STEP` of one sequencer step taken at that point (30_encoding.md R90). -/
inductive ScriptLine where
  | request (header : BitVec 22) (wdata : Word)
  | reset
  | step
deriving DecidableEq, Repr

/-- The machine: the engine and the host it serves (00_scope.md R12). -/
structure State where
  /-- The engine's architectural state (R21). -/
  engine : Engine
  /-- The lines still to come, the next one first (the model's own field, log 7). -/
  script : List ScriptLine
  /-- What the host was answered, newest first (the model's own field, log 8). -/
  responses : List Response
deriving DecidableEq, Repr

/-- What stops the machine. No step of a state that meets R41 raises either. -/
inductive Fault where
  /-- REVCOPY read SP1, or REDUCE its source scratchpad, while it holds no value. Raised by those two; R111 says no run
  reaches it and that a model may treat it as a fault. Safe (log 11). -/
  | scratchpadEmpty
  /-- REVCOPY ran with CHUNK above 545, for which R105 gives no cursor. Raised by REVCOPY; R41 item 7 rules it out. Safe
  (log 11). -/
  | chunkOutOfRange
deriving DecidableEq, Repr

/-- What the model gives no meaning to. -/
inductive Refusal where
  /-- The instruction has no meaning yet. Raised by an arm of `exec` only; none is left. Safe. -/
  | notModelled (mnemonic : String)
  /-- A stage step was performed in a phase that does not enable it (R103, R105, R107: enabled exactly in its own phase).
  Raised by EXPAND, REVCOPY, REDUCE; `step` never does so, since PHASE selects the stage step (R86). Safe (log 10). -/
  | stageNotEnabled
deriving DecidableEq, Repr

/-- SP2 with no value in any chunk. -/
def noChunks : Chunks := Vector.replicate 546 Option.none

/-- DIGEST when no digest is ready: 40 bytes of 0x00 (R33). -/
def zeroDigest : Vector Byte 40 := Vector.replicate 40 0

/-- HDR as power-up left it: the free draw of R181 (log 6). -/
def powerUpHdr (P : Params) : List Byte := (List.range P.hdrBytes).map P.hdrInit

/-- The engine after the first RESET: the table of R40. WORK lists no cell and HDR is the power-up draw, since RESET
changes neither (R180, R181). -/
def Engine.afterReset (P : Params) : Engine where
  phase := .idle
  chunk := 0
  prepOk := false
  branch := false
  ill := false
  err := .none
  workLen := 0
  hdrLen := 0
  version := 0
  digest := zeroDigest
  work := []
  hdr := powerUpHdr P
  sp1 := Option.none
  sp2 := noChunks

/-- The machine right after reset: the engine of R40, no line to come, nothing answered (log 7, log 8). -/
def State.reset : State where
  engine := Engine.afterReset Config.params
  script := []
  responses := []

end Sys2Proof.Machine
end

