-- ==== Sys2Proof/Machine/Flags.lean ====
section
/-! DEFINITION. The codes of PHASE and ERR, the STATUS view, and the computation of BRANCH (10_state.md R22 to R29). -/

namespace Sys2Proof.Machine

/-- The code of a phase (R22). -/
def Phase.code : Phase → BitVec 3
  | .idle => 0
  | .expand => 1
  | .reorder => 2
  | .reduce => 3
  | .done => 4
  | .fault => 5

/-- The phase of a code; 6 and 7 never occur (R22, R86). -/
def phaseOfCode (code : BitVec 3) : Option Phase :=
  match code.toNat with
  | 0 => some .idle
  | 1 => some .expand
  | 2 => some .reorder
  | 3 => some .reduce
  | 4 => some .done
  | 5 => some .fault
  | _ => none

/-- *Busy* means PHASE is EXPAND, REORDER or REDUCE (R22). -/
def Phase.busy : Phase → Bool
  | .expand | .reorder | .reduce => true
  | .idle | .done | .fault => false

/-- The code of an error (R27). -/
def Err.code : Err → BitVec 2
  | .none => 0
  | .invalidInput => 1
  | .primitiveFailure => 2

/-- STATUS as a 32-bit read returns it (R29). -/
def Engine.status (e : Engine) : Word :=
  BitVec.ofNat 32 (e.phase.code.toNat + 8 * e.prepOk.toNat + 16 * e.branch.toNat + 32 * e.ill.toNat
    + 256 * e.err.code.toNat)

/-- The signed reading of a 32-bit pattern (00_scope.md R15). -/
def sint32 (u : Word) : Int := if u.toNat < 2 ^ 31 then (u.toNat : Int) else (u.toNat : Int) - 2 ^ 32

/-- BRANCH for a version: 1 exactly when the signed version is greater than 1 (40_pipeline.md R101). -/
def branchOf (version : Word) : Bool := decide (1 < sint32 version)

end Sys2Proof.Machine
end

