-- ==== Sys2Proof/Machine/Operands.lean ====
section
/-! DEFINITION. Operand forms: host addresses (20_memory.md R51 to R54), the version (40_pipeline.md R102), chunks
(R104), and the requests to the SpongeHash primitive (42_sponge_primitive.md R141 to R144). -/

namespace Sys2Proof.Machine

/-- The five registers of the host map (R51). -/
inductive Register where
  | cmd
  | status
  | workLen
  | hdrLen
  | version
deriving DecidableEq, Repr

/-- The register a 32-bit access at `addr` reaches (R53). -/
def registerAt (addr : Addr) : Option Register :=
  match addr.toNat with
  | 0x00000 => some .cmd
  | 0x00004 => some .status
  | 0x00008 => some .workLen
  | 0x0000C => some .hdrLen
  | 0x00010 => some .version
  | _ => none

/-- The DIGEST byte a byte access at `addr` reaches: byte `k` is at `0x00040 + k` (R51). -/
def digestIndex (addr : Addr) : Option (Fin 40) :=
  if h : 0x00040 ≤ addr.toNat ∧ addr.toNat ≤ 0x00067 then some ⟨addr.toNat - 0x00040, by omega⟩ else none

/-- The host address of WORK byte 0 (R52). -/
def workBase : Nat := 0x40000

/-- Whether `addr` is in the WORK window (R51). -/
def inWorkWindow (P : Params) (addr : Addr) : Bool :=
  decide (workBase ≤ addr.toNat ∧ addr.toNat < workBase + P.hdrBytes)

/-- `le32` (00_scope.md R15). -/
def le32 (b0 b1 b2 b3 : Byte) : Nat :=
  b0.toNat + 2 ^ 8 * b1.toNat + 2 ^ 16 * b2.toNat + 2 ^ 24 * b3.toNat

/-- `be32` (R15). -/
def be32 (b0 b1 b2 b3 : Byte) : Nat :=
  2 ^ 24 * b0.toNat + 2 ^ 16 * b1.toNat + 2 ^ 8 * b2.toNat + b3.toNat

/-- `VER(b0 b1 b2 b3)`, a 32-bit pattern (R102). -/
def versionPattern (order : VerOrder) (b0 b1 b2 b3 : Byte) : Word :=
  match order with
  | .le => BitVec.ofNat 32 (le32 b0 b1 b2 b3)
  | .be => BitVec.ofNat 32 (be32 b0 b1 b2 b3)

/-- `HDR[k]`. HDR has `HDR_BYTES >= 4` bytes (R11), so bytes 0 to 3 exist. -/
def headerByte (hdr : List Byte) (k : Nat) : Byte := hdr.getD k 0

/-- `VER(HDR[0..4))` (R101, R102). -/
def versionOf (P : Params) (hdr : List Byte) : Word :=
  versionPattern P.verOrder (headerByte hdr 0) (headerByte hdr 1) (headerByte hdr 2) (headerByte hdr 3)

/-- Chunk `c` of a scratchpad, bytes `[c*KRATE .. (c+1)*KRATE)` (R104). -/
def chunkOf (P : Params) (pad : List Byte) (c : Nat) : List Byte := (pad.drop (c * P.krate)).take P.krate

/-- The bytes of the chunks in order, if every chunk holds a value (R37, R111). -/
def joinChunks : List (Option (List Byte)) → Option (List Byte)
  | [] => some []
  | none :: _ => none
  | some chunk :: rest =>
    match joinChunks rest with
    | some bytes => some (chunk ++ bytes)
    | none => none

/-- The input selector of a request (R141). -/
inductive SpongeSrc where
  | hdr
  | sp1
  | sp2
deriving DecidableEq, Repr

/-- The output selector of a request (R141). -/
inductive SpongeDst where
  | sp1
  | digest
deriving DecidableEq, Repr

/-- A request to the SpongeHash primitive, format P: four fields, no packed form (R141). -/
structure SpongeRequest where
  src : SpongeSrc
  /-- `in_bits`, 64 bits unsigned. -/
  inBits : BitVec 64
  dst : SpongeDst
  /-- `out_bytes`, 32 bits unsigned. -/
  outBytes : BitVec 32
deriving DecidableEq, Repr

/-- The request EXPAND makes (R144). -/
def expandRequest (P : Params) : SpongeRequest where
  src := .hdr
  inBits := BitVec.ofNat 64 (8 * P.hdrBytes)
  dst := .sp1
  outBytes := BitVec.ofNat 32 P.psz

/-- The request REDUCE makes: Branch A reads SP1, Branch B reads SP2 (R107, R144). -/
def reduceRequest (P : Params) (branch : Bool) : SpongeRequest where
  src := if branch then .sp2 else .sp1
  inBits := BitVec.ofNat 64 (8 * P.psz)
  dst := .digest
  outBytes := BitVec.ofNat 32 DIGEST_BYTES

/-- The bytes of the buffer a request reads, if it holds a value (R141, R111). -/
def Engine.source (e : Engine) : SpongeSrc → Option (List Byte)
  | .hdr => some e.hdr
  | .sp1 => e.sp1
  | .sp2 => joinChunks e.sp2.toList

/-- `SPONGE(inp, in_bits, out_bytes)` (00_scope.md R10). It sees only the first `ceil(in_bits / 8)` bytes of the input
(R143). -/
def spongeHash (P : Params) (inp : List Byte) (inBits outBytes : Nat) : Option (Vector Byte outBytes) :=
  P.primitive (inp.take ((inBits + 7) / 8)) inBits outBytes

/-- The response to a request whose `src` holds `inp` (R141, R142): `none` is `fail`. -/
def SpongeRequest.answer (P : Params) (r : SpongeRequest) (inp : List Byte) : Option (Vector Byte r.outBytes.toNat) :=
  spongeHash P inp r.inBits.toNat r.outBytes.toNat

end Sys2Proof.Machine
end

