-- ==== Sys2Proof/Machine/Ops.lean ====
section
/-! DEFINITION. The named operations: the WORK memory, updates of the state, fault entry (60_exceptions.md R154), command
rejection and acceptance (41_host_commands.md R121, R126), RESET (70_reset_and_hazards.md R180). -/

namespace Sys2Proof.Machine

/-- What an unlisted address of the WORK window reads as: the free draw of power-up (R34, R181; log 5). -/
def Memory.unlisted (P : Params) (a : Nat) : Byte := P.workInit (a - workBase)

/-- The byte at a host address of the WORK window. -/
def Memory.read (P : Params) : Memory → Nat → Byte
  | [], a => Memory.unlisted P a
  | (a', b) :: m, a => if a' = a then b else Memory.read P m a

/-- Lists `b` at `a`, at its place in the rising order. -/
def Memory.insert (a : Nat) (b : Byte) : Memory → Memory
  | [] => [(a, b)]
  | (a', b') :: m =>
    if a < a' then (a, b) :: (a', b') :: m
    else if a = a' then (a, b) :: m
    else (a', b') :: Memory.insert a b m

/-- Takes `a` out of the list. -/
def Memory.erase (a : Nat) (m : Memory) : Memory := m.filter fun c => c.1 ≠ a

/-- The write of one byte; writing what an unlisted address reads as removes the cell. -/
def Memory.write (P : Params) (m : Memory) (a : Nat) (b : Byte) : Memory :=
  if b = Memory.unlisted P a then Memory.erase a m else Memory.insert a b m

/-- Addresses strictly rising, from `lo` on. -/
def Memory.rising (lo : Nat) : Memory → Bool
  | [] => true
  | (a, _) :: m => decide (lo ≤ a) && Memory.rising (a + 1) m

/-- The canonical form: addresses strictly rising inside the WORK window, and no cell equal to what its address reads as
when unlisted. -/
def Memory.wf (P : Params) (m : Memory) : Bool :=
  Memory.rising workBase m && m.all fun c => decide (c.1 < workBase + P.hdrBytes) && (c.2 != Memory.unlisted P c.1)

/-- The bytes `WORK[0..HDR_BYTES)` in index order. -/
def windowBytes (P : Params) (m : Memory) : List Byte :=
  (List.range P.hdrBytes).map fun k => Memory.read P m (workBase + k)

/-- The state with another engine. -/
def State.setEngine (s : State) (e : Engine) : State := { s with engine := e }

/-- The state with another script. -/
def State.setScript (s : State) (lines : List ScriptLine) : State := { s with script := lines }

/-- The host is answered `r`. -/
def State.respond (s : State) (r : Response) : State := { s with responses := r :: s.responses }

/-- Fault entry, `raise E` (R154): PHASE and ERR, the scratchpads discarded, nothing else. Its return is CLR (R157),
`Engine.clr`. -/
def Engine.raise (c : Err) (e : Engine) : Engine :=
  { e with phase := .fault, err := c, sp1 := none, sp2 := noChunks }

/-- CLR's effect, the acknowledgement of DONE and the return from FAULT (R125, R157). -/
def Engine.clr (e : Engine) : Engine :=
  { e with phase := .idle, err := .none, ill := false, branch := false, digest := zeroDigest }

/-- Command rejection (R121). -/
def Engine.reject (e : Engine) : Engine := { e with ill := true }

/-- RESET (R180): every piece of state of R40 at its value, WORK and HDR unchanged. -/
def Engine.reset (e : Engine) : Engine :=
  { e with
    phase := .idle, chunk := 0, prepOk := false, branch := false, ill := false, err := .none
    workLen := 0, hdrLen := 0, version := 0, digest := zeroDigest, sp1 := none, sp2 := noChunks }

/-- PREP's effect (R123): the whole window is staged whatever WORK_LEN is. -/
def Engine.prep (P : Params) (e : Engine) : Engine :=
  { e with hdr := windowBytes P e.work, hdrLen := e.workLen, prepOk := true }

/-- START's effect once the size guard has passed (40_pipeline.md R101). -/
def Engine.beginRun (P : Params) (e : Engine) : Engine :=
  { e with
    version := versionOf P e.hdr, branch := branchOf (versionOf P e.hdr), chunk := 0
    sp1 := none, sp2 := noChunks, phase := .expand }

/-- START (R101): the size guard first, an unsigned comparison. -/
def Engine.start (P : Params) (e : Engine) : Engine :=
  if e.hdrLen.toNat < P.hdrBytes then e.raise .invalidInput else e.beginRun P

/-- The acceptance table (R126). -/
def commandAccepts : Command → Phase → Bool
  | .nop, _ => true
  | .prep, .idle => true
  | .prep, _ => false
  | .hash, .idle => true
  | .hash, _ => false
  | .clr, .idle | .clr, .done | .clr, .fault => true
  | .clr, .expand | .clr, .reorder | .clr, .reduce => false

/-- What an accepted command does to the engine (R122 to R125). -/
def commandEffect (P : Params) : Command → Engine → Engine
  | .nop, e => e
  | .prep, e => e.prep P
  | .hash, e => e.start P
  | .clr, e => e.clr

/-- A legal command: accepted or rejected by the phase (R120). -/
def performCommand (P : Params) (c : Command) (e : Engine) : Engine :=
  if commandAccepts c e.phase then commandEffect P c e else e.reject

/-- A command performed by a write of CMD: the bus response is `ok` in every case (R120). -/
def State.command (P : Params) (c : Command) (s : State) : State :=
  (s.setEngine (performCommand P c s.engine)).respond .ok

/-- The write of a command word to CMD (R120): legality first, then acceptance. -/
def State.commandWord (P : Params) (w : Word) (s : State) : State :=
  match decodeCommand w with
  | .ok c => s.command P c
  | .error _ => (s.setEngine s.engine.reject).respond .ok

/-- The value a 32-bit read of a register returns; CMD reads as 0 (R28, R55). -/
def Engine.readRegister (e : Engine) : Register → Word
  | .cmd => 0
  | .status => e.status
  | .workLen => e.workLen
  | .hdrLen => e.hdrLen
  | .version => e.version

/-- `MemRead(addr, 4)` (R55). -/
def memRead32 (e : Engine) (addr : Addr) : Response :=
  match registerAt addr with
  | some r => .ok32 (e.readRegister r)
  | none => .buserr

/-- `MemRead(addr, 1)` (R55). -/
def memRead8 (P : Params) (e : Engine) (addr : Addr) : Response :=
  match digestIndex addr with
  | some k => .ok8 e.digest[k]
  | none => if inWorkWindow P addr then .ok8 (Memory.read P e.work addr.toNat) else .buserr

/-- `MemWrite(addr, 4, v)` (R56): a write of CMD performs a command, a write of a read-only register is ignored. -/
def memWrite32 (P : Params) (addr : Addr) (v : Word) (s : State) : State :=
  match registerAt addr with
  | some .cmd => s.commandWord P v
  | some .workLen => (s.setEngine { s.engine with workLen := v }).respond .ok
  | some .status | some .hdrLen | some .version => s.respond .ok
  | none => s.respond .buserr

/-- `MemWrite(addr, 1, v)` (R56): a write of the DIGEST window is ignored. -/
def memWrite8 (P : Params) (addr : Addr) (v : Byte) (s : State) : State :=
  match digestIndex addr with
  | some _ => s.respond .ok
  | none =>
    if inWorkWindow P addr then
      (s.setEngine { s.engine with work := Memory.write P s.engine.work addr.toNat v }).respond .ok
    else s.respond .buserr

end Sys2Proof.Machine
end

