-- ==== Sys2Proof/Machine/Bus.lean ====
section
/-! DEFINITION. The host bus operations RD8, RD32, WR8, WR32 (41_host_commands.md R127 to R130). -/

namespace Sys2Proof.Machine

/-- RD8 (R127). -/
def execRd8 (addr : Addr) (s : State) : Host.Outcome State Fault Refusal :=
  .next (s.respond (memRead8 Config.params s.engine addr))

/-- RD32 (R128). -/
def execRd32 (addr : Addr) (s : State) : Host.Outcome State Fault Refusal :=
  .next (s.respond (memRead32 s.engine addr))

/-- WR8 (R129): the data is `wdata[7:0]`, the rest is ignored (R83). -/
def execWr8 (addr : Addr) (wdata : Word) (s : State) : Host.Outcome State Fault Refusal :=
  .next (memWrite8 Config.params addr (wdata.extractLsb' 0 8) s)

/-- WR32 (R130). -/
def execWr32 (addr : Addr) (wdata : Word) (s : State) : Host.Outcome State Fault Refusal :=
  .next (memWrite32 Config.params addr wdata s)

end Sys2Proof.Machine
end

