-- ==== Sys2Proof/Machine/Commands.lean ====
section
/-! DEFINITION. The commands NOP, PREP, HASH, CLR (41_host_commands.md R120 to R126). Each is what the write of its command
word to CMD does, the bus response `ok` included (R91, R120; log 9). -/

namespace Sys2Proof.Machine

/-- NOP (R122): accepted in every phase, changes nothing. -/
def execNop (s : State) : Host.Outcome State Fault Refusal := .next (s.command Config.params .nop)

/-- PREP (R123): accepted in IDLE. -/
def execPrep (s : State) : Host.Outcome State Fault Refusal := .next (s.command Config.params .prep)

/-- HASH (R124): accepted in IDLE; performs START in the same step. -/
def execHash (s : State) : Host.Outcome State Fault Refusal := .next (s.command Config.params .hash)

/-- CLR (R125): accepted in IDLE, DONE and FAULT. -/
def execClr (s : State) : Host.Outcome State Fault Refusal := .next (s.command Config.params .clr)

end Sys2Proof.Machine
end

