-- ==== Sys2Proof/Machine/Stages.lean ====
section
/-! DEFINITION. The stage steps EXPAND, REVCOPY, REDUCE of the sequencer (40_pipeline.md R103 to R107). -/

namespace Sys2Proof.Machine

/-- A stage step is enabled exactly in its own phase (R103, R105, R107). Elsewhere the spec gives it no effect: refused
(log 10). -/
def stageStep (enabled : Phase) (effect : Engine → Except Fault Engine) (s : State) :
    Host.Outcome State Fault Refusal :=
  if s.engine.phase = enabled then
    match effect s.engine with
    | .ok e => .next (s.setEngine e)
    | .error r => .fault r
  else .refused .stageNotEnabled

/-- EXPAND once the primitive has answered (R103): `none` is `fail`. -/
def Engine.storeExpansion {n : Nat} (answer : Option (Vector Byte n)) (e : Engine) : Engine :=
  match answer with
  | none => e.raise .primitiveFailure
  | some r => { e with sp1 := some r.toList, phase := if e.branch then .reorder else .reduce }

/-- EXPAND's effect (R103). -/
def Engine.expand (P : Params) (e : Engine) : Engine :=
  e.storeExpansion ((expandRequest P).answer P e.hdr)

/-- REVCOPY's effect with SP1 holding `pad` (R105): chunk `545 - CHUNK` of SP1 becomes chunk `CHUNK` of SP2. -/
def Engine.copyChunk (P : Params) (pad : List Byte) (e : Engine) : Engine :=
  { e with
    sp2 := e.sp2.setIfInBounds e.chunk.toNat (some (chunkOf P pad (KPOW_MUL - 1 - e.chunk.toNat)))
    chunk := e.chunk + 1
    phase := if e.chunk.toNat + 1 = KPOW_MUL then .reduce else e.phase }

/-- REVCOPY (R105). SP1 holds a value and CHUNK is at most 545 in every run (R41 item 7, R111); where not, a fault
(log 11). -/
def Engine.revcopy (P : Params) (e : Engine) : Except Fault Engine :=
  match e.sp1 with
  | none => .error .scratchpadEmpty
  | some pad => if e.chunk.toNat < KPOW_MUL then .ok (e.copyChunk P pad) else .error .chunkOutOfRange

/-- REDUCE once the primitive has answered (R107): the scratchpads are discarded in both outcomes. -/
def Engine.storeDigest (answer : Option (Vector Byte 40)) (e : Engine) : Engine :=
  match answer with
  | none => e.raise .primitiveFailure
  | some d => { e with digest := d, phase := .done, sp1 := none, sp2 := noChunks }

/-- REDUCE (R107). Its source scratchpad holds a value in every run (R111); where not, a fault (log 11). -/
def Engine.reduce (P : Params) (e : Engine) : Except Fault Engine :=
  match e.source (reduceRequest P e.branch).src with
  | none => .error .scratchpadEmpty
  | some pad => .ok (e.storeDigest ((reduceRequest P e.branch).answer P pad))

/-- EXPAND (R103). -/
def execExpand (s : State) : Host.Outcome State Fault Refusal :=
  stageStep .expand (fun e => .ok (e.expand Config.params)) s

/-- REVCOPY (R105). -/
def execRevcopy (s : State) : Host.Outcome State Fault Refusal :=
  stageStep .reorder (Engine.revcopy Config.params) s

/-- REDUCE (R107). -/
def execReduce (s : State) : Host.Outcome State Fault Refusal :=
  stageStep .reduce (Engine.reduce Config.params) s

end Sys2Proof.Machine
end

