-- ==== Sys2Proof/Machine/Dispatch.lean ====
section
/-! DEFINITION. The meaning of every instruction, one arm per constructor. -/

namespace Sys2Proof.Machine

def exec (i : Instr) (s : State) : Host.Outcome State Fault Refusal :=
  match i with
  | .rd8 addr => Sys2Proof.Machine.execRd8 addr s
  | .rd32 addr => Sys2Proof.Machine.execRd32 addr s
  | .wr8 addr wdata => Sys2Proof.Machine.execWr8 addr wdata s
  | .wr32 addr wdata => Sys2Proof.Machine.execWr32 addr wdata s
  | .nop => Sys2Proof.Machine.execNop s
  | .prep => Sys2Proof.Machine.execPrep s
  | .hash => Sys2Proof.Machine.execHash s
  | .clr => Sys2Proof.Machine.execClr s
  | .expand => Sys2Proof.Machine.execExpand s
  | .revcopy => Sys2Proof.Machine.execRevcopy s
  | .reduce => Sys2Proof.Machine.execReduce s

end Sys2Proof.Machine
end

