-- ==== Sys2Proof/Machine/Fetch.lean ====
section
/-! DEFINITION. Which step comes next (20_memory.md R63, 30_encoding.md R86, R90; log 7), and how an instruction is put
where the next step takes it (log 12). -/

namespace Sys2Proof.Machine

/-- The next step: an instruction to run, with the state it runs in, or an event that is no instruction, with the state it
leaves. -/
inductive Turn where
  | instr (i : Instr) (s : State)
  | event (s : State)
deriving DecidableEq, Repr

/-- The sequencer's turn: the stage step PHASE selects, or nothing where PHASE selects none (R86, R165). -/
def sequencerTurn (s : State) : Turn :=
  match decodeStage s.engine.phase.code with
  | .ok i => .instr i s
  | .error _ => .event s

/-- The host's turn with a request: the operation it decodes to, or `buserr` for a reserved size code, which changes
nothing (R84, R88). -/
def requestTurn (header : BitVec 22) (wdata : Word) (s : State) : Turn :=
  match decodeRequest header wdata with
  | .ok i => .instr i s
  | .error _ => .event (s.respond .buserr)

/-- The next step of the total order of R63: the next line of the script; with no line left, the sequencer's turn (weak
fairness, R187). -/
def fetch (s : State) : Turn :=
  match s.script with
  | [] => sequencerTurn s
  | .step :: rest => sequencerTurn (s.setScript rest)
  | .reset :: rest => .event ((s.setScript rest).setEngine s.engine.reset)
  | .request header wdata :: rest => requestTurn header wdata (s.setScript rest)

/-- The engine with PHASE at `p` and a value, zero bytes where it holds none, in each scratchpad the stage step of `p`
reads: PHASE is the fetch, and no phase is reached without the scratchpads it reads (R111). -/
def Engine.atStage (P : Params) (p : Phase) (e : Engine) : Engine :=
  match p with
  | .reorder => { e with phase := p, sp1 := some (e.sp1.getD (List.replicate P.psz 0)) }
  | .reduce =>
    { e with
      phase := p
      sp1 := some (e.sp1.getD (List.replicate P.psz 0))
      sp2 := if e.branch then e.sp2.map fun c => some (c.getD (List.replicate P.krate 0)) else e.sp2 }
  | _ => { e with phase := p }

/-- The state whose next step takes this encoded operation: a request is the script's next line, a command word is the data
of a request `WR32 CMD` (R91), a stage code is the value of PHASE at a sequencer step. -/
def State.place (P : Params) (s : State) : Encoded → State
  | .request header wdata => s.setScript (.request header wdata :: s.script)
  | .command w => s.setScript (.request (requestHeader 1#1 0b10#2 0) w :: s.script)
  | .stage code =>
    match phaseOfCode code with
    | some p => (s.setEngine (s.engine.atStage P p)).setScript (.step :: s.script)
    | none => s

/-- `State.place` of the encoding whose bits are `w`; a length no format has changes nothing. -/
def State.placeWord (P : Params) (s : State) (nbits w : Nat) : State :=
  match tableWord nbits w with
  | some enc => s.place P enc
  | none => s

end Sys2Proof.Machine
end

