-- ==== Sys2Proof/Machine/Step.lean ====
section
/-! DEFINITION. One step of the machine: one atomic step of the total order of 20_memory.md R63. -/

namespace Sys2Proof.Machine

/-- One step: the instruction whose turn it is, or the event. -/
def step (s : State) : Host.Outcome State Fault Refusal :=
  match fetch s with
  | .instr i s' => exec i s'
  | .event s' => .next s'

/-- The state whose next step fetches and runs the instruction whose bits are `w` (log 12). -/
def State.withFetchWord (s : State) (nbits w : Nat) : State := s.placeWord Config.params nbits w

end Sys2Proof.Machine
end

