-- ==== Sys2Proof/Machine/Kpow.lean ====
section
/-! DEFINITION. The reversal map and the function the block computes (40_pipeline.md R104, 00_scope.md R2), as claims name
them; no step calls them. -/

namespace Sys2Proof.Machine

/-- `REV(S)`, byte by byte (R2, R104): `REV(S)[j] = S[(KPOW_MUL-1 - (j div KRATE))*KRATE + (j mod KRATE)]`. -/
def rev (P : Params) (pad : List Byte) : List Byte :=
  (List.range P.psz).map fun j => pad.getD ((KPOW_MUL - 1 - j / P.krate) * P.krate + j % P.krate) 0

/-- `KPOW(H)` (R2): `none` when one of the two SPONGE calls answers `fail`. -/
def kpow (P : Params) (header : List Byte) : Option (Vector Byte 40) :=
  match spongeHash P header (8 * P.hdrBytes) P.psz with
  | none => none
  | some s1 =>
    spongeHash P (if branchOf (versionOf P header) then rev P s1.toList else s1.toList) (8 * P.psz) 40

end Sys2Proof.Machine
end

