-- ==== Sys2Proof/Machine/Script.lean ====
section
/-! DEFINITION. The host script's lines and pseudo-instructions (30_encoding.md R90, R91). -/

namespace Sys2Proof.Machine

/-- `RD8 addr`. -/
def lineRd8 (addr : Addr) : ScriptLine := .request (requestHeader 0#1 0b00#2 addr) 0

/-- `RD32 addr`. -/
def lineRd32 (addr : Addr) : ScriptLine := .request (requestHeader 0#1 0b10#2 addr) 0

/-- `WR8 addr, byte`. -/
def lineWr8 (addr : Addr) (b : Byte) : ScriptLine := .request (requestHeader 1#1 0b00#2 addr) (b.setWidth 32)

/-- `WR32 addr, word`. -/
def lineWr32 (addr : Addr) (w : Word) : ScriptLine := .request (requestHeader 1#1 0b10#2 addr) w

/-- `NOP` is `WR32 CMD, 0` (R91). -/
def lineNop : ScriptLine := lineWr32 0x00000 0

/-- `PREP` is `WR32 CMD, 1` (R91). -/
def linePrep : ScriptLine := lineWr32 0x00000 1

/-- `HASH` is `WR32 CMD, 2` (R91). -/
def lineHash : ScriptLine := lineWr32 0x00000 2

/-- `CLR` is `WR32 CMD, 3` (R91). -/
def lineClr : ScriptLine := lineWr32 0x00000 3

/-- `SETLEN n` (R91). -/
def lineSetLen (n : Word) : ScriptLine := lineWr32 0x00008 n

/-- `LOADHDR b0 ... b(n-1)` (R91). -/
def loadHdr (bytes : List Byte) : List ScriptLine :=
  bytes.mapIdx (fun k b => lineWr8 (BitVec.ofNat 19 (workBase + k)) b) ++ [lineSetLen (BitVec.ofNat 32 bytes.length)]

/-- `LOADHDR b0 ... b(m-1) ZEROS n` (R91). -/
def loadHdrZeros (bytes : List Byte) (n : Nat) : List ScriptLine :=
  loadHdr (bytes ++ List.replicate (n - bytes.length) 0)

/-- `POLL` (R91): one STATUS read for each entry, that many sequencer steps before it. -/
def poll (turns : List Nat) : List ScriptLine :=
  turns.flatMap fun k => List.replicate k ScriptLine.step ++ [lineRd32 0x00004]

/-- Whether the host's POLL ends at this response: bits 2:0 of STATUS are 4 or 5 (R91). -/
def pollEnds : Response → Bool
  | .ok32 status => decide (status.toNat % 8 = 4 ∨ status.toNat % 8 = 5)
  | .ok | .ok8 _ | .buserr => false

/-- `GETDIGEST` (R91). -/
def getDigest : List ScriptLine := (List.range 40).map fun k => lineRd8 (BitVec.ofNat 19 (0x00040 + k))

end Sys2Proof.Machine
end

