-- ==== Sys2Proof/Safety.lean ====
section
/-! DEFINITION. What claims call a consistent engine (10_state.md R41), a correct run (40_pipeline.md R110) and a safe
step (R111). -/

namespace Sys2Proof.Machine

/-- PHASE is EXPAND, REORDER, REDUCE or DONE: BRANCH and VERSION describe the run (R41 items 6 and 10). -/
def Phase.inRun : Phase → Bool
  | .expand | .reorder | .reduce | .done => true
  | .idle | .fault => false

/-- The ten invariants of R41, item by item. -/
structure Engine.MeetsR41 (P : Params) (e : Engine) : Prop where
  item1 : e.phase.code.toNat ≤ 5
  item2 : (e.err ≠ .none ↔ e.phase = .fault) ∧ e.err.code ≠ 3
  item3 : e.phase ≠ .done → e.digest = zeroDigest
  item4 : e.phase = .idle → e.branch = false
  item5 : e.phase = .fault → e.err = .invalidInput → e.branch = false
  item6 : (e.branch = true → 1 < sint32 e.version) ∧
    (e.phase.inRun = true → (e.branch = true ↔ 1 < sint32 e.version))
  item7 : e.phase = .reorder → e.branch = true ∧ e.chunk.toNat ≤ 545 ∧ e.sp1.isSome = true ∧
    ∀ i : Fin 546, i.val < e.chunk.toNat → e.sp2[i].isSome = true
  item8 : e.phase = .reduce → e.sp1.isSome = true ∧
    (e.branch = true → e.chunk.toNat = 546 ∧ ∀ i : Fin 546, e.sp2[i].isSome = true)
  item9 : e.phase.busy = false → e.sp1 = none ∧ e.sp2 = noChunks
  item10 : e.phase.inRun = true → P.hdrBytes ≤ e.hdrLen.toNat ∧ e.prepOk = true

/-- The sizes of the buffers (R33 to R37), the canonical form of WORK, and the range of CHUNK (R23). -/
structure Engine.Shaped (P : Params) (e : Engine) : Prop where
  work_wf : Memory.wf P e.work = true
  hdr_length : e.hdr.length = P.hdrBytes
  sp1_length : ∀ pad, e.sp1 = some pad → pad.length = P.psz
  chunk_length : ∀ (i : Fin 546) (c : List Byte), e.sp2[i] = some c → c.length = P.krate
  chunk_le : e.chunk.toNat ≤ 546

/-- The invariant of the machine: R41, the sizes, and the two facts R41 leaves to the rules that make it inductive: CHUNK is
0 from START to the end of EXPAND (R101), and nothing is staged before a PREP (R24). -/
structure Engine.Inv (P : Params) (e : Engine) : Prop where
  r41 : e.MeetsR41 P
  shaped : e.Shaped P
  expand_chunk : e.phase = .expand → e.chunk = 0
  unstaged : e.prepOk = false → e.hdrLen = 0

/-- The run of the staged header is correct so far (R110): the version and the branch are the header's, SP1 is its
expansion, the chunks of SP2 written so far are those of `REV(SP1)`, the digest of a run that ended well is `KPOW(HDR)`, and
a run ends in PrimitiveFailure only where `KPOW(HDR)` has no value. -/
structure Engine.RunCorrect (P : Params) (e : Engine) : Prop where
  version : e.phase.inRun = true → e.version = versionOf P e.hdr ∧ e.branch = branchOf (versionOf P e.hdr)
  sp1 : e.phase = .reorder ∨ e.phase = .reduce →
    ∃ s1, spongeHash P e.hdr (8 * P.hdrBytes) P.psz = some s1 ∧ e.sp1 = some s1.toList
  sp2 : ∀ pad, e.sp1 = some pad → e.phase = .reorder ∨ (e.phase = .reduce ∧ e.branch = true) →
    ∀ i : Fin 546, i.val < e.chunk.toNat → e.sp2[i] = some (chunkOf P pad (545 - i.val))
  done : e.phase = .done → kpow P e.hdr = some e.digest
  failed : e.phase = .fault → e.err = .primitiveFailure → kpow P e.hdr = none

/-- A safe outcome: the machine neither faults nor refuses. -/
def Safe : Host.Outcome State Fault Refusal → Prop
  | .next _ => True
  | .fault _ => False
  | .refused _ => False

/-- The host's next line writes `w` to CMD: the header of `WR32` at address 0x00000 (30_encoding.md R83). -/
def State.WritesCmd (s : State) (w : Word) : Prop :=
  ∃ header rest, s.script = .request header w :: rest ∧ header &&& 0x3FFFFF = 0x300000

/-- `k` steps of the machine. -/
abbrev run (k : Nat) (s : State) : Host.Outcome State Fault Refusal := Host.Core.run Sys2Proof.core k s

end Sys2Proof.Machine
end

