-- ==== Sys2Proof/WellFormed.lean ====
section
/-! DEFINITION. Which terms and which encodings are well formed (30_encoding.md R83, R87, R88). -/

namespace Sys2Proof

/-- Every term of `Instr` is well formed: each operand's type has exactly the width of its field (R83), and no encoding
carries another operand (R87). A reserved address is a legal operand, answered `buserr` (R57). -/
def Instr.wellFormed : Instr → Bool
  | .rd8 _ | .rd32 _ | .wr8 _ _ | .wr32 _ _ => true
  | .nop | .prep | .hash | .clr => true
  | .expand | .revcopy | .reduce => true

/-- An encoding is well formed when R88 does not list it: a request whose size code is 00 or 10 (bit 19 clear), a
command word 0 to 3, a stage code 1 to 3. -/
def Encoded.wellFormed : Encoded → Bool
  | .request header _ => !header.getLsbD 19
  | .command w => decide (w.toNat ≤ 3)
  | .stage code => decide (1 ≤ code.toNat ∧ code.toNat ≤ 3)

end Sys2Proof
end

