-- ==== Sys2Proof/Certificates/Slice0/Obligations.lean ====
section
/-! DEFINITION. The statements for the provers. Each docstring names the rule of spec/ it formalises. -/

open Sys2Proof Sys2Proof.Machine

/-! ### Encodings -/

/-- Every instruction's encoding decodes to it, with every operand at every value (30_encoding.md R82, R83, R86). -/
def Obligations.DecodeEncodeAgree : Prop :=
  ∀ i : Instr, i.wellFormed = true → decode (encode i) = .ok i

/-- An encoding that decodes is the encoding of what it decodes to; a read alone leaves `wdata` unused (R83), and its
header is then the encoded one. -/
def Obligations.EncodeDecodeAgree : Prop :=
  ∀ (enc : Encoded) (i : Instr), decode enc = .ok i →
    encode i = enc ∨
    ∃ header wdata, enc = .request header wdata ∧ header.getLsbD 21 = false ∧ encode i = .request header 0

/-- The decoder refuses exactly the encodings R88 lists: size codes 01 and 11, command words above 3, and phase codes
without a stage step. -/
def Obligations.DecoderAcceptsExactlyWellFormed : Prop :=
  ∀ enc : Encoded, (∃ i, decode enc = .ok i) ↔ enc.wellFormed = true

/-- R82: the command decoder is total, and NOP, PREP, HASH, CLR are the words 0, 1, 2, 3 under mask 0xFFFFFFFF; a write of
an illegal word to CMD is rejected. -/
def Obligations.CommandWordDecoding : Prop :=
  ∀ w : Word,
    (decodeCommand w = .ok .nop ↔ w &&& 0xFFFFFFFF = 0x00000000) ∧
    (decodeCommand w = .ok .prep ↔ w &&& 0xFFFFFFFF = 0x00000001) ∧
    (decodeCommand w = .ok .hash ↔ w &&& 0xFFFFFFFF = 0x00000002) ∧
    (decodeCommand w = .ok .clr ↔ w &&& 0xFFFFFFFF = 0x00000003) ∧
    (decodeCommand w = .error .illegalCommand ↔ w.extractLsb' 8 24 ≠ 0 ∨ 0x04 ≤ (w.extractLsb' 0 8).toNat) ∧
    (decodeCommand w = .error .illegalCommand → ∀ s : State, exec (.wr32 0x00000 w) s =
      .next { s with engine := { s.engine with ill := true }, responses := .ok :: s.responses })

/-- The request decoder follows the opcode table's match and mask over the 22-bit header (R83, R92). -/
def Obligations.RequestDecodingFollowsTable : Prop :=
  ∀ (header : BitVec 22) (wdata : Word) (i : Instr), decodeRequest header wdata = .ok i ↔
    (header &&& 0x380000 = 0x000000 ∧ i = .rd8 (header.extractLsb' 0 19)) ∨
    (header &&& 0x380000 = 0x100000 ∧ i = .rd32 (header.extractLsb' 0 19)) ∨
    (header &&& 0x380000 = 0x200000 ∧ i = .wr8 (header.extractLsb' 0 19) wdata) ∨
    (header &&& 0x380000 = 0x300000 ∧ i = .wr32 (header.extractLsb' 0 19) wdata)

/-- A few words written out in 95_test_vectors.md 2.7 and 30_encoding.md R82, R86. -/
def Obligations.WrittenOutWordsDecode : Prop :=
  decode (.request 0x040003 0) = .ok (.rd8 0x40003) ∧ decode (.request 0x10000C 0) = .ok (.rd32 0x0000C) ∧
  decode (.request 0x240001 0x1FF) = .ok (.wr8 0x40001 0x1FF) ∧
  decode (.request 0x300008 0x12345678) = .ok (.wr32 0x00008 0x12345678) ∧
  decode (.request 0x080004 0) = .error .reservedSize ∧ decode (.request 0x380008 0x12345678) = .error .reservedSize ∧
  decode (.command 0x00000002) = .ok .hash ∧ decode (.command 0x00000102) = .error .illegalCommand ∧
  decode (.stage 0b010) = .ok .revcopy ∧ decode (.stage 0b110) = .error .noStageStep

/-! ### One step -/

/-- A step runs the decoded instruction: the request that is the script's next line, or the stage step PHASE selects at a
`STEP` mark and when no line is left; around `exec`, the step takes the line off the script and does nothing else (log 7;
20_memory.md R63, 30_encoding.md R86). -/
def Obligations.StepRunsDecodedInstruction : Prop :=
  ∀ (s : State) (i : Instr),
    (∀ header wdata rest, s.script = .request header wdata :: rest → decode (.request header wdata) = .ok i →
      step s = exec i { s with script := rest }) ∧
    (∀ rest, s.script = .step :: rest → decode (.stage s.engine.phase.code) = .ok i →
      step s = exec i { s with script := rest }) ∧
    (s.script = [] → decode (.stage s.engine.phase.code) = .ok i → step s = exec i s)

/-- The words `withFetchWord` places are what the next step runs: a request, with its write data or with `wdata` left out,
and a command word in the state itself, a stage code in the state `Engine.atStage` gives (the model's conventions: log 12
for the placing, log 16 for the lengths in bits and the left out `wdata`). -/
def Obligations.PlacedWordRunsNext : Prop :=
  ∀ (s : State) (n w : Nat) (i : Instr), decodeTableWord n w = some i →
    (n = 22 ∨ n = 24 ∨ n = 32 ∨ n = 54 ∨ n = 56 → step (s.withFetchWord n w) = exec i s) ∧
    (n = 3 ∨ n = 8 → ∃ p : Phase, p.code = BitVec.ofNat 3 w ∧
      step (s.withFetchWord n w) = exec i { s with engine := s.engine.atStage Config.params p })

/-- R84: what each request does, by its `w` and `size` fields; size codes 01 and 11 are answered `buserr` and change
nothing. -/
def Obligations.RequestsByWidth : Prop :=
  ∀ (s : State) (header : BitVec 22) (d : Word) (rest : List ScriptLine), s.script = .request header d :: rest →
    let a := header.extractLsb' 0 19
    let s' := { s with script := rest }
    (header.extractLsb' 19 3 = 0b000 → step s = .next (s'.respond (memRead8 Config.params s.engine a))) ∧
    (header.extractLsb' 19 3 = 0b010 → step s = .next (s'.respond (memRead32 s.engine a))) ∧
    (header.extractLsb' 19 3 = 0b100 → step s = .next (memWrite8 Config.params a (d.extractLsb' 0 8) s')) ∧
    (header.extractLsb' 19 3 = 0b110 → step s = .next (memWrite32 Config.params a d s')) ∧
    (header.extractLsb' 19 2 = 0b01 ∨ header.extractLsb' 19 2 = 0b11 →
      step s = .next { s' with responses := .buserr :: s.responses })

/-- R40: the state after the RESET event, in whatever state it occurs; WORK and HDR are unchanged, STATUS reads 0. -/
def Obligations.ResetEvent : Prop :=
  ∀ (s : State) (rest : List ScriptLine), s.script = .reset :: rest →
    ∃ t, step s = .next t ∧ t.script = rest ∧ t.responses = s.responses ∧
      t.engine.phase = .idle ∧ t.engine.chunk = 0 ∧ t.engine.prepOk = false ∧ t.engine.branch = false ∧
      t.engine.ill = false ∧ t.engine.err = .none ∧ t.engine.workLen = 0 ∧ t.engine.hdrLen = 0 ∧ t.engine.version = 0 ∧
      (∀ k : Fin 40, t.engine.digest[k] = 0x00) ∧ t.engine.work = s.engine.work ∧ t.engine.hdr = s.engine.hdr ∧
      t.engine.sp1 = none ∧ (∀ i : Fin 546, t.engine.sp2[i] = none) ∧ t.engine.status = 0x00000000

/-- The reset state: the values R40 gives; every WORK and HDR byte is the power-up draw, a free value (R181; logs 5, 6), and
the script and the responses are empty (the model's own choice, logs 7, 8). -/
def Obligations.ResetState : Prop :=
  State.reset.engine.phase = .idle ∧ State.reset.engine.chunk = 0 ∧ State.reset.engine.prepOk = false ∧
  State.reset.engine.branch = false ∧ State.reset.engine.ill = false ∧ State.reset.engine.err = .none ∧
  State.reset.engine.workLen = 0 ∧ State.reset.engine.hdrLen = 0 ∧ State.reset.engine.version = 0 ∧
  (∀ k : Fin 40, State.reset.engine.digest[k] = 0x00) ∧ State.reset.engine.sp1 = none ∧
  (∀ i : Fin 546, State.reset.engine.sp2[i] = none) ∧ State.reset.engine.status = 0x00000000 ∧
  (∀ k, k < Config.params.hdrBytes →
    Memory.read Config.params State.reset.engine.work (0x40000 + k) = Config.params.workInit k ∧
    State.reset.engine.hdr[k]? = some (Config.params.hdrInit k)) ∧
  State.reset.script = [] ∧ State.reset.responses = []

/-- In IDLE, DONE and FAULT the engine has no sequencer step (R86, R165): a `STEP` mark there changes nothing but the
script, and with no line left the machine stays (the model's reading of the wait, log 7). -/
def Obligations.QuietEngineWaits : Prop :=
  ∀ s : State, s.engine.phase = .idle ∨ s.engine.phase = .done ∨ s.engine.phase = .fault →
    (∀ rest, s.script = .step :: rest → step s = .next { s with script := rest }) ∧
    (s.script = [] → step s = .next s)

/-! ### Bus operations -/

/-- R128: RD32 is the request with `w = 0`, `size = 10`; it answers the register at its address, changes nothing else, and
is a bus error elsewhere. -/
def Obligations.Rd32ReadsRegister : Prop :=
  ∀ (addr : Addr) (s : State),
    (∀ d : Word, decode (.request (0#1 ++ 0b10#2 ++ addr) d) = .ok (.rd32 addr)) ∧
    let answer : Response :=
      if addr = 0x00000 then .ok32 0
      else if addr = 0x00004 then .ok32 s.engine.status
      else if addr = 0x00008 then .ok32 s.engine.workLen
      else if addr = 0x0000C then .ok32 s.engine.hdrLen
      else if addr = 0x00010 then .ok32 s.engine.version
      else .buserr
    exec (.rd32 addr) s = .next { s with responses := answer :: s.responses }

/-- R127: RD8 is the request with `w = 0`, `size = 00`; it answers the byte of the DIGEST window or of the WORK window at
its address, changes nothing else, and is a bus error elsewhere. A DIGEST byte read while PHASE is not DONE is 0x00 in every
state that meets R41. -/
def Obligations.Rd8ReadsWindow : Prop :=
  ∀ (addr : Addr) (s : State),
    (∀ d : Word, decode (.request (0#1 ++ 0b00#2 ++ addr) d) = .ok (.rd8 addr)) ∧
    (∀ k : Fin 40, addr.toNat = 0x00040 + k.val →
      exec (.rd8 addr) s = .next { s with responses := .ok8 s.engine.digest[k] :: s.responses }) ∧
    (0x40000 ≤ addr.toNat ∧ addr.toNat < 0x40000 + Config.params.hdrBytes →
      exec (.rd8 addr) s =
        .next { s with responses := .ok8 (Memory.read Config.params s.engine.work addr.toNat) :: s.responses }) ∧
    (¬(0x00040 ≤ addr.toNat ∧ addr.toNat ≤ 0x00067) ∧
      ¬(0x40000 ≤ addr.toNat ∧ addr.toNat < 0x40000 + Config.params.hdrBytes) →
      exec (.rd8 addr) s = .next { s with responses := .buserr :: s.responses }) ∧
    (s.engine.MeetsR41 Config.params → s.engine.phase ≠ .done → 0x00040 ≤ addr.toNat ∧ addr.toNat ≤ 0x00067 →
      exec (.rd8 addr) s = .next { s with responses := .ok8 0x00 :: s.responses })

/-- R129: WR8 is the request with `w = 1`, `size = 00`; it stores `wdata[7:0]` at its address in the WORK window and leaves
every other byte and register unchanged; in the DIGEST window it is ignored with `ok`; elsewhere it is a bus error. -/
def Obligations.Wr8StoresByte : Prop :=
  ∀ (addr : Addr) (wdata : Word) (s : State),
    decode (.request (1#1 ++ 0b00#2 ++ addr) wdata) = .ok (.wr8 addr wdata) ∧
    (0x40000 ≤ addr.toNat ∧ addr.toNat < 0x40000 + Config.params.hdrBytes →
      ∃ m, exec (.wr8 addr wdata) s =
          .next { s with engine := { s.engine with work := m }, responses := .ok :: s.responses } ∧
        Memory.read Config.params m addr.toNat = wdata.extractLsb' 0 8 ∧
        ∀ a, a ≠ addr.toNat → Memory.read Config.params m a = Memory.read Config.params s.engine.work a) ∧
    (0x00040 ≤ addr.toNat ∧ addr.toNat ≤ 0x00067 →
      exec (.wr8 addr wdata) s = .next { s with responses := .ok :: s.responses }) ∧
    (¬(0x00040 ≤ addr.toNat ∧ addr.toNat ≤ 0x00067) ∧
      ¬(0x40000 ≤ addr.toNat ∧ addr.toNat < 0x40000 + Config.params.hdrBytes) →
      exec (.wr8 addr wdata) s = .next { s with responses := .buserr :: s.responses })

/-- R130: WR32 is the request with `w = 1`, `size = 10`; it performs a command at CMD, stores WORK_LEN, is ignored with `ok`
at the three read-only registers, and is a bus error at an address that is no register. -/
def Obligations.Wr32WritesRegister : Prop :=
  ∀ (addr : Addr) (d : Word) (s : State),
    decode (.request (1#1 ++ 0b10#2 ++ addr) d) = .ok (.wr32 addr d) ∧
    (addr = 0x00000 →
      (∀ c, decodeCommand d = .ok c → exec (.wr32 addr d) s = exec c.instr s) ∧
      (∀ r, decodeCommand d = .error r → exec (.wr32 addr d) s =
        .next { s with engine := { s.engine with ill := true }, responses := .ok :: s.responses })) ∧
    (addr = 0x00008 → exec (.wr32 addr d) s =
      .next { s with engine := { s.engine with workLen := d }, responses := .ok :: s.responses }) ∧
    (addr = 0x00004 ∨ addr = 0x0000C ∨ addr = 0x00010 →
      exec (.wr32 addr d) s = .next { s with responses := .ok :: s.responses }) ∧
    (addr ≠ 0x00000 ∧ addr ≠ 0x00004 ∧ addr ≠ 0x00008 ∧ addr ≠ 0x0000C ∧ addr ≠ 0x00010 →
      exec (.wr32 addr d) s = .next { s with responses := .buserr :: s.responses })

/-- R120: a write of CMD decodes first, then checks acceptance, then performs the command; an illegal word and a command its
phase does not accept are rejected; the response is `ok` in every case. -/
def Obligations.CmdWritePerformsCommand : Prop :=
  ∀ (w : Word) (s : State),
    let rejected := { s with engine := { s.engine with ill := true }, responses := .ok :: s.responses }
    (∀ r, decodeCommand w = .error r → exec (.wr32 0x00000 w) s = .next rejected) ∧
    (∀ c, decodeCommand w = .ok c → commandAccepts c s.engine.phase = false →
      exec (.wr32 0x00000 w) s = .next rejected) ∧
    (∀ c, decodeCommand w = .ok c → commandAccepts c s.engine.phase = true →
      exec (.wr32 0x00000 w) s = exec c.instr s) ∧
    ∃ t, exec (.wr32 0x00000 w) s = .next t ∧ t.responses = .ok :: s.responses

/-- R57: a bus error changes no state of the engine; the requests answered so are exactly the ones the rule lists. -/
def Obligations.BusErrorsChangeNothing : Prop :=
  let registers : List Addr := [0x00000, 0x00004, 0x00008, 0x0000C, 0x00010]
  let windows (addr : Addr) : Prop := (0x00040 ≤ addr.toNat ∧ addr.toNat ≤ 0x00067) ∨
    (0x40000 ≤ addr.toNat ∧ addr.toNat < 0x40000 + Config.params.hdrBytes)
  let answers (i : Instr) (s : State) (refused : Prop) : Prop := ∃ t r, exec i s = .next t ∧
    t.responses = r :: s.responses ∧ (r = .buserr ↔ refused) ∧ (refused → t.engine = s.engine ∧ t.script = s.script)
  (∀ (addr : Addr) (d : Word) (s : State),
    answers (.rd32 addr) s (addr ∉ registers) ∧ answers (.wr32 addr d) s (addr ∉ registers) ∧
    answers (.rd8 addr) s (¬windows addr) ∧ answers (.wr8 addr d) s (¬windows addr)) ∧
  (∀ (s : State) (header : BitVec 22) (d : Word) (rest : List ScriptLine), s.script = .request header d :: rest →
    header.getLsbD 19 = true → step s = .next { s with script := rest, responses := .buserr :: s.responses })

/-- A byte stored in the WORK window is the byte read there next, in any phase (R55, R56). -/
def Obligations.WorkReadAfterWrite : Prop :=
  ∀ (addr : Addr) (wdata : Word) (s : State),
    0x40000 ≤ addr.toNat ∧ addr.toNat < 0x40000 + Config.params.hdrBytes →
    ∃ t, exec (.wr8 addr wdata) s = .next t ∧
      exec (.rd8 addr) t = .next { t with responses := .ok8 (wdata.extractLsb' 0 8) :: t.responses }

/-- Writing the same value of WORK or WORK_LEN twice equals writing it once (R58). -/
def Obligations.DataWritesIdempotent : Prop :=
  ∀ (addr : Addr) (d : Word) (s t u : State),
    (exec (.wr8 addr d) s = .next t → exec (.wr8 addr d) t = .next u → u.engine = t.engine) ∧
    (addr ≠ 0x00000 → exec (.wr32 addr d) s = .next t → exec (.wr32 addr d) t = .next u → u.engine = t.engine)

/-! ### Commands -/

/-- R122: NOP is command word 0; it is accepted in every phase and changes nothing; it does not clear ILL. -/
def Obligations.NopChangesNothing : Prop :=
  decode (.command 0x00000000) = .ok .nop ∧
  ∀ s : State, exec .nop s = .next { s with responses := .ok :: s.responses }

/-- R123: PREP is command word 1; in IDLE it stages the whole window and the declared length and sets PREP_OK; elsewhere it
is rejected. -/
def Obligations.PrepStagesHeader : Prop :=
  decode (.command 0x00000001) = .ok .prep ∧
  ∀ s : State,
    (s.engine.phase = .idle → ∃ hdr,
      exec .prep s = .next { s with
        engine := { s.engine with hdr := hdr, hdrLen := s.engine.workLen, prepOk := true }
        responses := .ok :: s.responses } ∧
      hdr.length = Config.params.hdrBytes ∧
      ∀ k, k < Config.params.hdrBytes →
        hdr[k]? = some (Memory.read Config.params s.engine.work (0x40000 + k))) ∧
    (s.engine.phase ≠ .idle →
      exec .prep s = .next { s with engine := { s.engine with ill := true }, responses := .ok :: s.responses })

/-- R101, R124: HASH is command word 2; in IDLE it begins the run when the staged length suffices, raises InvalidInput when
it does not, and is rejected elsewhere. -/
def Obligations.HashStartsRun : Prop :=
  decode (.command 0x00000002) = .ok .hash ∧
  ∀ s : State,
    (s.engine.phase = .idle → Config.params.hdrBytes ≤ s.engine.hdrLen.toNat →
      exec .hash s = .next { s with
        engine := { s.engine with
          version := versionOf Config.params s.engine.hdr
          branch := decide (1 < sint32 (versionOf Config.params s.engine.hdr))
          chunk := 0, sp1 := none, sp2 := noChunks, phase := .expand }
        responses := .ok :: s.responses }) ∧
    (s.engine.phase = .idle → s.engine.hdrLen.toNat < Config.params.hdrBytes →
      exec .hash s = .next { s with
        engine := { s.engine with phase := .fault, err := .invalidInput, sp1 := none, sp2 := noChunks }
        responses := .ok :: s.responses }) ∧
    (s.engine.phase ≠ .idle →
      exec .hash s = .next { s with engine := { s.engine with ill := true }, responses := .ok :: s.responses })

/-- R125: CLR is command word 3; in IDLE, DONE and FAULT it returns to IDLE with ERR, ILL, BRANCH and the digest cleared;
while busy it is rejected. -/
def Obligations.ClrReturnsToIdle : Prop :=
  decode (.command 0x00000003) = .ok .clr ∧
  ∀ s : State,
    (s.engine.phase = .idle ∨ s.engine.phase = .done ∨ s.engine.phase = .fault →
      exec .clr s = .next { s with
        engine := { s.engine with
          phase := .idle, err := .none, ill := false, branch := false, digest := Vector.replicate 40 0x00 }
        responses := .ok :: s.responses }) ∧
    (s.engine.phase = .expand ∨ s.engine.phase = .reorder ∨ s.engine.phase = .reduce →
      exec .clr s = .next { s with engine := { s.engine with ill := true }, responses := .ok :: s.responses })

/-- R126: the acceptance table, word by word and phase by phase: a word the table accepts has its command's effect, a word
it rejects sets ILL and changes nothing else; DONE and FAULT are left only by CLR or RESET. -/
def Obligations.AcceptanceTable : Prop :=
  (∀ (w : Word) (s : State),
    let accepted := w = 0 ∨ (w = 1 ∧ s.engine.phase = .idle) ∨ (w = 2 ∧ s.engine.phase = .idle) ∨
      (w = 3 ∧ (s.engine.phase = .idle ∨ s.engine.phase = .done ∨ s.engine.phase = .fault))
    (¬accepted → exec (.wr32 0x00000 w) s =
      .next { s with engine := { s.engine with ill := true }, responses := .ok :: s.responses }) ∧
    (accepted → ∃ c, decodeCommand w = .ok c ∧ exec (.wr32 0x00000 w) s =
      .next { s with engine := commandEffect Config.params c s.engine, responses := .ok :: s.responses })) ∧
  ∀ s t : State, step s = .next t → s.engine.phase = .done ∨ s.engine.phase = .fault →
    t.engine.phase = s.engine.phase ∨
    (t.engine.phase = .idle ∧ ((∃ rest, s.script = .reset :: rest) ∨ s.WritesCmd 0x00000003))

/-- While the engine is busy no host transaction changes the run: of the engine, only ILL, WORK and WORK_LEN can change
(R126, 20_memory.md R64). -/
def Obligations.BusyHostCannotTouchRun : Prop :=
  ∀ (s : State) (header : BitVec 22) (d : Word) (rest : List ScriptLine), s.script = .request header d :: rest →
    s.engine.phase.busy = true →
    ∃ t, step s = .next t ∧
      t.engine = { s.engine with ill := t.engine.ill, work := t.engine.work, workLen := t.engine.workLen }

/-! ### Stage steps -/

/-- R103: EXPAND is stage code 001; it gives SP1 the primitive's answer on the whole staged header and goes to REORDER or
REDUCE by BRANCH; where the primitive answers `fail`, it raises PrimitiveFailure. -/
def Obligations.ExpandFillsScratchpad : Prop :=
  decode (.stage 0b001) = .ok .expand ∧
  ∀ s : State, s.engine.phase = .expand →
    let after : Engine :=
      match spongeHash Config.params s.engine.hdr (8 * Config.params.hdrBytes) Config.params.psz with
      | some r => { s.engine with sp1 := some r.toList, phase := if s.engine.branch = true then .reorder else .reduce }
      | none => { s.engine with phase := .fault, err := .primitiveFailure, sp1 := none, sp2 := noChunks }
    exec .expand s = .next { s with engine := after }

/-- R105: REVCOPY is stage code 010; it copies chunk `545 - CHUNK` of SP1, byte for byte, to chunk CHUNK of SP2, leaves
every other chunk and SP1 unchanged, counts, and goes to REDUCE after the 546th copy. -/
def Obligations.RevcopyCopiesChunk : Prop :=
  decode (.stage 0b010) = .ok .revcopy ∧
  ∀ (s : State) (pad : List Byte), s.engine.phase = .reorder → s.engine.sp1 = some pad →
    pad.length = Config.params.psz → s.engine.chunk.toNat ≤ 545 →
    ∃ (sp2 : Chunks) (copy : List Byte),
      exec .revcopy s = .next { s with engine := { s.engine with
        sp2 := sp2, chunk := BitVec.ofNat 10 (s.engine.chunk.toNat + 1)
        phase := if s.engine.chunk.toNat = 545 then .reduce else .reorder } } ∧
      sp2[s.engine.chunk.toNat]? = some (some copy) ∧ copy.length = Config.params.krate ∧
      (∀ k, k < Config.params.krate →
        copy[k]? = pad[(545 - s.engine.chunk.toNat) * Config.params.krate + k]?) ∧
      ∀ i : Fin 546, i.val ≠ s.engine.chunk.toNat → sp2[i] = s.engine.sp2[i]

/-- R107: REDUCE is stage code 011; it reads SP1 on Branch A and SP2 on Branch B, discards both, and stores the 40 bytes of
the answer or raises PrimitiveFailure. -/
def Obligations.ReduceStoresDigest : Prop :=
  decode (.stage 0b011) = .ok .reduce ∧
  ∀ (s : State) (pad : List Byte), s.engine.phase = .reduce →
    (s.engine.branch = false → s.engine.sp1 = some pad) →
    (s.engine.branch = true → joinChunks s.engine.sp2.toList = some pad) →
    let after : Engine :=
      match spongeHash Config.params pad (8 * Config.params.psz) 40 with
      | some d => { s.engine with digest := d, phase := .done, sp1 := none, sp2 := noChunks }
      | none => { s.engine with phase := .fault, err := .primitiveFailure, sp1 := none, sp2 := noChunks }
    exec .reduce s = .next { s with engine := after }

/-- A stage step is enabled exactly in its own phase (R103, R105, R107); the model refuses it elsewhere (its own choice,
log 10). -/
def Obligations.StageStepsOnlyInTheirPhase : Prop :=
  ∀ s : State,
    (s.engine.phase ≠ .expand → exec .expand s = .refused .stageNotEnabled) ∧
    (s.engine.phase ≠ .reorder → exec .revcopy s = .refused .stageNotEnabled) ∧
    (s.engine.phase ≠ .reduce → exec .reduce s = .refused .stageNotEnabled)

/-- Where a scratchpad a stage step reads holds no value, or CHUNK is past the last chunk, the model faults (its own choice,
which R111 allows, log 11). -/
def Obligations.ValuelessScratchpadFaults : Prop :=
  ∀ s : State,
    (s.engine.phase = .reorder → s.engine.sp1 = none → exec .revcopy s = .fault .scratchpadEmpty) ∧
    (s.engine.phase = .reorder → s.engine.sp1 ≠ none → 546 ≤ s.engine.chunk.toNat →
      exec .revcopy s = .fault .chunkOutOfRange) ∧
    (s.engine.phase = .reduce → s.engine.branch = false → s.engine.sp1 = none →
      exec .reduce s = .fault .scratchpadEmpty) ∧
    (∀ i : Fin 546, s.engine.phase = .reduce → s.engine.branch = true → s.engine.sp2[i] = none →
      exec .reduce s = .fault .scratchpadEmpty)

/-! ### Rules of the whole machine -/

/-- R109: all the transitions of PHASE, with their conditions; every other step leaves PHASE as it is. -/
def Obligations.PhaseTransitions : Prop :=
  ∀ s t : State, step s = .next t →
    let P := Config.params
    let goes (p q : Phase) : Prop := s.engine.phase = p ∧ t.engine.phase = q
    let expansion := spongeHash P s.engine.hdr (8 * P.hdrBytes) P.psz
    let reduction (pad : List Byte) := spongeHash P pad (8 * P.psz) 40
    let source (pad : List Byte) : Prop :=
      (if s.engine.branch = true then joinChunks s.engine.sp2.toList else s.engine.sp1) = some pad
    t.engine.phase = s.engine.phase ∨
    (goes .idle .expand ∧ P.hdrBytes ≤ s.engine.hdrLen.toNat ∧ s.WritesCmd 0x00000002) ∨
    (goes .idle .fault ∧ s.engine.hdrLen.toNat < P.hdrBytes ∧ s.WritesCmd 0x00000002) ∨
    (goes .expand .reduce ∧ expansion.isSome = true ∧ s.engine.branch = false) ∨
    (goes .expand .reorder ∧ expansion.isSome = true ∧ s.engine.branch = true) ∨
    (goes .expand .fault ∧ expansion = none) ∨
    (goes .reorder .reduce ∧ s.engine.chunk.toNat + 1 = 546) ∨
    (goes .reduce .done ∧ ∃ pad, source pad ∧ (reduction pad).isSome = true) ∨
    (goes .reduce .fault ∧ ∃ pad, source pad ∧ reduction pad = none) ∨
    ((goes .done .idle ∨ goes .fault .idle) ∧ s.WritesCmd 0x00000003) ∨
    (t.engine.phase = .idle ∧ ∃ rest, s.script = .reset :: rest)

/-- R154: a step that enters FAULT writes PHASE and ERR, discards the scratchpads and changes nothing else of the engine;
DIGEST stays 40 zero bytes; code 1 comes from START in IDLE, code 2 from EXPAND or REDUCE; in FAULT the sequencer has no
step. -/
def Obligations.FaultEntryIsPrecise : Prop :=
  (∀ s t : State, s.engine.Inv Config.params → step s = .next t → s.engine.phase ≠ .fault → t.engine.phase = .fault →
    t.engine = { s.engine with phase := .fault, err := t.engine.err, sp1 := none, sp2 := noChunks } ∧
    (∀ k : Fin 40, t.engine.digest[k] = 0x00) ∧
    ((s.engine.phase = .idle ∧ t.engine.err.code = 1 ∧ s.engine.hdrLen.toNat < Config.params.hdrBytes) ∨
     ((s.engine.phase = .expand ∨ s.engine.phase = .reduce) ∧ t.engine.err.code = 2))) ∧
  ∀ (s : State) (rest : List ScriptLine), s.engine.phase = .fault → s.script = .step :: rest →
    step s = .next { s with script := rest }

/-- HDR, HDR_LEN and PREP_OK are written by an accepted PREP only, a write of CMD with word 1 in IDLE, but for RESET's
zeroes (10_state.md R24, R31, R35). -/
def Obligations.OnlyPrepStages : Prop :=
  ∀ s t : State, step s = .next t →
    (t.engine.hdr = s.engine.hdr ∧ t.engine.hdrLen = s.engine.hdrLen ∧ t.engine.prepOk = s.engine.prepOk) ∨
    (s.WritesCmd 0x00000001 ∧ s.engine.phase = .idle ∧ t.engine.hdrLen = s.engine.workLen ∧ t.engine.prepOk = true ∧
      t.engine.hdr.length = Config.params.hdrBytes ∧
      ∀ k, k < Config.params.hdrBytes →
        t.engine.hdr[k]? = some (Memory.read Config.params s.engine.work (0x40000 + k))) ∨
    ((∃ rest, s.script = .reset :: rest) ∧ t.engine.hdr = s.engine.hdr ∧ t.engine.hdrLen = 0 ∧
      t.engine.prepOk = false)

/-- VERSION is written by START only, after the size guard, but for RESET's zero (R32). -/
def Obligations.OnlyStartWritesVersion : Prop :=
  ∀ s t : State, step s = .next t →
    t.engine.version = s.engine.version ∨
    (s.engine.phase = .idle ∧ t.engine.phase = .expand ∧ Config.params.hdrBytes ≤ s.engine.hdrLen.toNat ∧
      t.engine.version = versionOf Config.params s.engine.hdr) ∨
    (t.engine.version = 0 ∧ ∃ rest, s.script = .reset :: rest)

/-- DIGEST is written by a REDUCE that succeeds, all 40 bytes in the step that sets DONE, and zeroed by CLR, a write of CMD
with word 3 while the engine is not busy, and by RESET; both leave the engine in IDLE (R33). -/
def Obligations.OnlyReduceWritesDigest : Prop :=
  ∀ s t : State, step s = .next t →
    t.engine.digest = s.engine.digest ∨
    (s.engine.phase = .reduce ∧ t.engine.phase = .done ∧
      ∃ pad, (if s.engine.branch = true then joinChunks s.engine.sp2.toList else s.engine.sp1) = some pad ∧
        spongeHash Config.params pad (8 * Config.params.psz) 40 = some t.engine.digest) ∨
    ((∀ k : Fin 40, t.engine.digest[k] = 0x00) ∧ t.engine.phase = .idle ∧
      ((s.engine.phase.busy = false ∧ s.WritesCmd 0x00000003) ∨ ∃ rest, s.script = .reset :: rest))

/-- ILL is set by a write of CMD only, and cleared by a RESET or by a step from IDLE, DONE or FAULT to IDLE that is a write
of CMD with CLR's word (R26). -/
def Obligations.IllIsSticky : Prop :=
  ∀ s t : State, step s = .next t →
    (s.engine.ill = false → t.engine.ill = true → ∃ w, s.WritesCmd w ∧ w ≠ 0 ∧
      t.engine = { s.engine with ill := true }) ∧
    (s.engine.ill = true → t.engine.ill = false → t.engine.phase = .idle ∧
      ((∃ rest, s.script = .reset :: rest) ∨ (s.WritesCmd 0x00000003 ∧ s.engine.phase.busy = false)))

/-- CHUNK is zeroed by START and RESET, incremented by REVCOPY, and changed by nothing else; it never wraps (R23). -/
def Obligations.ChunkCountsCopies : Prop :=
  ∀ s t : State, step s = .next t →
    t.engine.chunk = s.engine.chunk ∨
    (t.engine.chunk = 0 ∧
      ((s.engine.phase = .idle ∧ t.engine.phase = .expand) ∨ ∃ rest, s.script = .reset :: rest)) ∨
    (s.engine.phase = .reorder ∧ t.engine.chunk.toNat = s.engine.chunk.toNat + 1)

/-- WORK is written by the host alone, one byte of the window at a time, and RESET does not change it (R34). -/
def Obligations.OnlyHostWritesWork : Prop :=
  ∀ s t : State, step s = .next t →
    t.engine.work = s.engine.work ∨
    ∃ header d rest, s.script = .request header d :: rest ∧ header &&& 0x380000 = 0x200000 ∧
      let a := (header.extractLsb' 0 19).toNat
      (0x40000 ≤ a ∧ a < 0x40000 + Config.params.hdrBytes) ∧
      Memory.read Config.params t.engine.work a = d.extractLsb' 0 8 ∧
      ∀ a', a' ≠ a → Memory.read Config.params t.engine.work a' = Memory.read Config.params s.engine.work a'

/-- No step of any state is refused: PHASE selects the stage step it enables (R86). -/
def Obligations.NoStepRefuses : Prop :=
  ∀ (s : State) (r : Refusal), step s ≠ .refused r

/-- R111: no step of a state that meets the invariant reads a scratchpad that holds no value; the machine goes on. -/
def Obligations.InvariantStatesAreSafe : Prop :=
  ∀ s : State, s.engine.Inv Config.params → Safe (step s)

/-- Every step keeps the invariant: R41, the buffers' sizes, the canonical form of WORK, and the range of CHUNK. -/
def Obligations.StepKeepsInvariant : Prop :=
  ∀ s t : State, s.engine.Inv Config.params → step s = .next t → t.engine.Inv Config.params

/-- The reset state meets the invariant, and the correctness of a run (no run has begun). -/
def Obligations.InvariantAtReset : Prop :=
  State.reset.engine.Inv Config.params ∧ State.reset.engine.RunCorrect Config.params

/-- R41: in every state reachable from RESET, whatever the host does and however its transactions and the sequencer's steps
interleave, the ten invariants hold. The script carries the order of the steps (log 7). -/
def Obligations.ReachableStatesMeetR41 : Prop :=
  ∀ (script : List ScriptLine) (k : Nat) (t : State),
    run k { State.reset with script := script } = .next t → t.engine.MeetsR41 Config.params

/-- Every step keeps a run correct, whatever the interleaving: so in every reachable state in DONE the digest is `KPOW` of
the staged header (R110). -/
def Obligations.StepKeepsRunCorrect : Prop :=
  ∀ s t : State, s.engine.Inv Config.params → s.engine.RunCorrect Config.params → step s = .next t →
    t.engine.RunCorrect Config.params

/-- R108, R112: a HASH accepted with enough header, and then the sequencer alone, ends after exactly 1 step where EXPAND
fails, 2 on Branch A, 548 on Branch B; it ends in DONE with `DIGEST = KPOW(H)`, or in FAULT with ERR = 2 and DIGEST zero
where `KPOW(H)` has no value, and is busy until then. That the sequencer moves when no line is left is the model's choice
(log 7), which stands for the fairness of 70_reset_and_hazards.md R187. -/
def Obligations.RunComputesKpow : Prop :=
  ∀ s : State, s.engine.Inv Config.params → s.engine.phase = .idle →
    Config.params.hdrBytes ≤ s.engine.hdrLen.toNat → s.script = [lineHash] →
    let P := Config.params
    let H := s.engine.hdr
    let n := if spongeHash P H (8 * P.hdrBytes) P.psz = none then 1
      else if 1 < sint32 (versionOf P H) then 548 else 2
    (∃ t, run (1 + n) s = .next t ∧ t.engine.version = versionOf P H ∧
      (t.engine.branch = true ↔ 1 < sint32 (versionOf P H)) ∧
      match kpow P H with
      | some d => t.engine.phase = .done ∧ t.engine.digest = d
      | none => t.engine.phase = .fault ∧ t.engine.err = .primitiveFailure ∧ ∀ k : Fin 40, t.engine.digest[k] = 0x00) ∧
    ∀ j, j < n → ∃ u, run (1 + j) s = .next u ∧ u.engine.phase.busy = true

/-- R106: from REORDER with CHUNK = 0, after exactly 546 REVCOPY steps `SP2 = REV(SP1)`, CHUNK = 546 and PHASE = REDUCE.
With no line left the sequencer moves at every step, the model's choice (log 7; R187). -/
def Obligations.ReorderLoopReverses : Prop :=
  ∀ (s : State) (pad : List Byte), s.engine.phase = .reorder → s.engine.chunk = 0 → s.engine.sp1 = some pad →
    pad.length = Config.params.psz → s.script = [] →
    ∃ t, run 546 s = .next t ∧ joinChunks t.engine.sp2.toList = some (rev Config.params pad) ∧
      t.engine.sp1 = some pad ∧ t.engine.chunk.toNat = 546 ∧ t.engine.phase = .reduce

/-- Writes to WORK and WORK_LEN never affect a run in progress (20_memory.md R64 (c), R110): two busy machines that differ
in them and in what their hosts were answered still differ only there after a step. -/
def Obligations.RunIgnoresWorkWindow : Prop :=
  let alike (s u : State) : Prop := s.script = u.script ∧
    u.engine = { s.engine with work := u.engine.work, workLen := u.engine.workLen }
  ∀ s t u : State, alike s u → s.engine.phase.busy = true → step s = .next t →
    ∃ v, step u = .next v ∧ alike t v

/-! ### Values -/

/-- R29: every field of STATUS at its place, the reserved bits 7:6 and 31:10 zero; a read of STATUS has no side effect, a
write of it is `ok` and changes nothing. -/
def Obligations.StatusLayout : Prop :=
  (∀ e : Engine,
    e.status.extractLsb' 0 3 = e.phase.code ∧ e.status.getLsbD 3 = e.prepOk ∧ e.status.getLsbD 4 = e.branch ∧
    e.status.getLsbD 5 = e.ill ∧ e.status.extractLsb' 6 2 = 0 ∧ e.status.extractLsb' 8 2 = e.err.code ∧
    e.status.extractLsb' 10 22 = 0 ∧
    e.status.toNat = e.phase.code.toNat + 8 * e.prepOk.toNat + 16 * e.branch.toNat + 32 * e.ill.toNat
      + 256 * e.err.code.toNat ∧
    e.phase.code.toNat ≤ 5 ∧ e.err.code.toNat ≤ 2) ∧
  ∀ (s : State) (d : Word),
    exec (.rd32 0x00004) s = .next { s with responses := .ok32 s.engine.status :: s.responses } ∧
    exec (.wr32 0x00004 d) s = .next { s with responses := .ok :: s.responses }

/-- R102: the version is the pattern of header bytes 0 to 3 in the order VER_ORDER, and the signed comparison: Branch B
exactly for the patterns 0x00000002 to 0x7FFFFFFF. -/
def Obligations.VersionPatternAndBranch : Prop :=
  (∀ b0 b1 b2 b3 : Byte,
    (versionPattern .le b0 b1 b2 b3).toNat = b0.toNat + 2 ^ 8 * b1.toNat + 2 ^ 16 * b2.toNat + 2 ^ 24 * b3.toNat ∧
    (versionPattern .be b0 b1 b2 b3).toNat = 2 ^ 24 * b0.toNat + 2 ^ 16 * b1.toNat + 2 ^ 8 * b2.toNat + b3.toNat) ∧
  (∀ (P : Params) (b0 b1 b2 b3 : Byte) (rest : List Byte),
    versionOf P (b0 :: b1 :: b2 :: b3 :: rest) = versionPattern P.verOrder b0 b1 b2 b3) ∧
  ∀ v : Word, (-2 ^ 31 ≤ sint32 v ∧ sint32 v ≤ 2 ^ 31 - 1) ∧
    (branchOf v = true ↔ 0x00000002 ≤ v.toNat ∧ v.toNat ≤ 0x7FFFFFFF)

/-- R104: REV reverses the order of the 546 chunks and keeps the bytes inside each; it is its own inverse; no chunk stays in
place; it leaves a scratchpad unchanged exactly when its chunks read the same from both ends; with `KRATE = 1` it is byte
reversal. -/
def Obligations.RevReversesChunks : Prop :=
  ∀ (P : Params) (pad : List Byte), pad.length = P.psz →
    (rev P pad).length = P.psz ∧
    (∀ i k, i ≤ 545 → k < P.krate → (rev P pad)[i * P.krate + k]? = pad[(545 - i) * P.krate + k]?) ∧
    rev P (rev P pad) = pad ∧
    (∀ i, i ≤ 545 → 545 - i ≠ i) ∧
    (rev P pad = pad ↔ ∀ c, c ≤ 545 → chunkOf P pad c = chunkOf P pad (545 - c)) ∧
    (P.krate = 1 → rev P pad = pad.reverse)

/-- R11: every instantiation of the model meets the constraints, and every pair of `KRATE` and `HDR_BYTES` the rule admits,
with any byte order and any primitive, is an instantiation. -/
def Obligations.ParametersMeetConstraints : Prop :=
  (∀ P : Params, (1 ≤ P.krate ∧ P.krate ≤ 480) ∧ (P.hdrBytes = 546 * P.krate ∨ P.hdrBytes = P.krate) ∧
    (4 ≤ P.hdrBytes ∧ P.hdrBytes ≤ 262144) ∧ P.psz ≤ 262080 ∧ 8 * P.psz < 2 ^ 22) ∧
  ∀ (krate hdrBytes : Nat) (order : VerOrder)
    (primitive : List Byte → Nat → (outBytes : Nat) → Option (Vector Byte outBytes)),
    1 ≤ krate → krate ≤ 480 → hdrBytes = 546 * krate ∨ hdrBytes = krate → 4 ≤ hdrBytes →
    ∃ P : Params, P.krate = krate ∧ P.hdrBytes = hdrBytes ∧ P.verOrder = order ∧ P.primitive = primitive

/-- R143: the answer depends on `in_bits`, `out_bytes` and the first `ceil(in_bits / 8)` bytes of the input, and on nothing
else; on an input of exactly those bytes it is the answer of the instantiation's primitive (00_scope.md R10). -/
def Obligations.SpongeSeesOnlyItsInput : Prop :=
  ∀ (P : Params) (inp inp' : List Byte) (inBits outBytes : Nat),
    ((∀ k, 8 * k < inBits → inp[k]? = inp'[k]?) →
      spongeHash P inp inBits outBytes = spongeHash P inp' inBits outBytes) ∧
    (inp.length = (inBits + 7) / 8 → spongeHash P inp inBits outBytes = P.primitive inp inBits outBytes)

/-- The canonical form of WORK is canonical: two memories in it that read the same at every address of the window are equal
(the model's own form, log 5). -/
def Obligations.CanonicalMemoriesAreEqual : Prop :=
  ∀ (P : Params) (m m' : Memory), Memory.wf P m = true → Memory.wf P m' = true →
    (∀ a, 0x40000 ≤ a → a < 0x40000 + P.hdrBytes → Memory.read P m a = Memory.read P m' a) → m = m'

/-- R141, R144: the fields of the requests EXPAND and REDUCE make. `in_bits` is a 64-bit and `out_bytes` a 32-bit field, and
each holds its whole length, a multiple of 8 for `in_bits`. -/
def Obligations.SpongeRequestFields : Prop :=
  ∀ P : Params,
    ((expandRequest P).src = .hdr ∧ (expandRequest P).inBits.toNat = 8 * P.hdrBytes ∧
      (expandRequest P).dst = .sp1 ∧ (expandRequest P).outBytes.toNat = 546 * P.krate) ∧
    ∀ branch : Bool, (reduceRequest P branch).src = (if branch = true then .sp2 else .sp1) ∧
      (reduceRequest P branch).inBits.toNat = 8 * P.psz ∧
      (reduceRequest P branch).dst = .digest ∧ (reduceRequest P branch).outBytes.toNat = 40
end

