-- ==== Sys2Proof/Laws/Config.lean ====
section
/-! SUPPORT. The bounds of the parameters (00_scope.md R11). -/

namespace Sys2Proof

variable (P : Params)

theorem Params.krate_pos : 0 < P.krate := Nat.succ_pos _

theorem Params.krate_le : P.krate ≤ 480 := P.kratePred.isLt

theorem Params.psz_eq : P.psz = 546 * P.krate := rfl

theorem Params.psz_le : P.psz ≤ 262080 := by
  have := P.krate_le
  rw [P.psz_eq]; omega

/-- `HDR_BYTES` is `KRATE`, then at least 4, or `PSZ` (R8). -/
theorem Params.hdrBytes_cases : (P.hdrBytes = P.krate ∧ 4 ≤ P.krate) ∨ P.hdrBytes = P.psz := by
  unfold Params.hdrBytes
  split
  · rename_i h; exact .inl ⟨rfl, h.2⟩
  · exact .inr rfl

theorem Params.four_le_hdrBytes : 4 ≤ P.hdrBytes := by
  have := P.krate_pos
  have := P.psz_eq
  rcases P.hdrBytes_cases with h | h <;> omega

theorem Params.hdrBytes_le : P.hdrBytes ≤ 262080 := by
  have := P.krate_le
  have := P.psz_eq
  rcases P.hdrBytes_cases with h | h <;> omega

end Sys2Proof
end

