-- ==== Sys2Proof/Laws/Decode.lean ====
section
/-! SUPPORT. The fields of a request header and of a command word as numbers, and the fields the encoder puts in. -/

namespace Sys2Proof

/-- The field of bits `lo` up, `len` wide, as a number (00_scope.md R14). -/
theorem extractLsb'_toNat_div {n : Nat} (v : BitVec n) (lo len : Nat) :
    (v.extractLsb' lo len).toNat = v.toNat / 2 ^ lo % 2 ^ len := by
  rw [BitVec.extractLsb'_toNat, Nat.shiftRight_eq_div_pow]

variable {w : BitVec 1} {size : BitVec 2} {addr : Addr}

theorem requestHeader_toNat :
    (requestHeader w size addr).toNat = 2 ^ 21 * w.toNat + 2 ^ 19 * size.toNat + addr.toNat := by
  have := w.isLt
  have := size.isLt
  have := addr.isLt
  rw [requestHeader, BitVec.toNat_ofNat]
  omega

theorem requestHeader_w : ((requestHeader w size addr).extractLsb' 21 1).toNat = w.toNat := by
  have := w.isLt
  have := size.isLt
  have := addr.isLt
  rw [extractLsb'_toNat_div, requestHeader_toNat]
  omega

theorem requestHeader_size : ((requestHeader w size addr).extractLsb' 19 2).toNat = size.toNat := by
  have := w.isLt
  have := size.isLt
  have := addr.isLt
  rw [extractLsb'_toNat_div, requestHeader_toNat]
  omega

theorem requestHeader_addr : (requestHeader w size addr).extractLsb' 0 19 = addr := by
  have := w.isLt
  have := size.isLt
  have := addr.isLt
  apply BitVec.eq_of_toNat_eq
  rw [extractLsb'_toNat_div, requestHeader_toNat]
  omega

/-- A header's number, field by field. -/
theorem header_toNat (header : BitVec 22) : header.toNat = 2 ^ 21 * (header.extractLsb' 21 1).toNat
    + 2 ^ 19 * (header.extractLsb' 19 2).toNat + (header.extractLsb' 0 19).toNat := by
  have := header.isLt
  simp only [extractLsb'_toNat_div]
  omega

/-- What the opcode table's mask `0x380000` leaves of a header: `w` and `size`, bits 21:19 (30_encoding.md R83). -/
theorem header_and_mask (header : BitVec 22) :
    (header &&& 0x380000).toNat = 2 ^ 19 * (header.toNat / 2 ^ 19 % 2 ^ 3) := by
  rw [BitVec.toNat_and, Nat.mul_comm, ← Nat.shiftLeft_eq, ← Nat.shiftRight_eq_div_pow]
  apply Nat.eq_of_testBit_eq
  intro k
  rw [show (0x380000 : BitVec 22).toNat = (2 ^ 3 - 1) <<< 19 from rfl]
  simp only [Nat.testBit_and, Nat.testBit_shiftLeft, Nat.testBit_mod_two_pow, Nat.testBit_two_pow_sub_one,
    Nat.testBit_shiftRight]
  by_cases h : 19 ≤ k
  · rw [show 19 + (k - 19) = k by omega]
    cases header.toNat.testBit k <;> simp [h]
  · simp [h]

theorem requestHeader_and_mask :
    (requestHeader w size addr &&& 0x380000).toNat = 2 ^ 21 * w.toNat + 2 ^ 19 * size.toNat := by
  have := w.isLt
  have := size.isLt
  have := addr.isLt
  rw [header_and_mask, requestHeader_toNat]
  omega

/-- All a request header can decode to (30_encoding.md R84). -/
theorem decodeRequest_eq_ok {header : BitVec 22} {d : Word} {i : Instr} : decodeRequest header d = .ok i ↔
    ((header.extractLsb' 21 1).toNat = 0 ∧ (header.extractLsb' 19 2).toNat = 0 ∧
      i = .rd8 (header.extractLsb' 0 19)) ∨
    ((header.extractLsb' 21 1).toNat = 0 ∧ (header.extractLsb' 19 2).toNat = 2 ∧
      i = .rd32 (header.extractLsb' 0 19)) ∨
    ((header.extractLsb' 21 1).toNat = 1 ∧ (header.extractLsb' 19 2).toNat = 0 ∧
      i = .wr8 (header.extractLsb' 0 19) d) ∨
    ((header.extractLsb' 21 1).toNat = 1 ∧ (header.extractLsb' 19 2).toNat = 2 ∧
      i = .wr32 (header.extractLsb' 0 19) d) := by
  simp only [decodeRequest]
  generalize (header.extractLsb' 21 1).toNat = w
  generalize (header.extractLsb' 19 2).toNat = z
  split <;> simp_all [eq_comm]

/-- All a command word can decode to, by its number (R82). -/
theorem decodeCommand_cases (w : Word) :
    (w = 0 ∧ decodeCommand w = .ok .nop) ∨ (w = 1 ∧ decodeCommand w = .ok .prep) ∨
    (w = 2 ∧ decodeCommand w = .ok .hash) ∨ (w = 3 ∧ decodeCommand w = .ok .clr) ∨
    (3 < w.toNat ∧ decodeCommand w = .error .illegalCommand) := by
  by_cases h : 3 < w.toNat
  · refine .inr (.inr (.inr (.inr ⟨h, ?_⟩)))
    have := w.isLt
    unfold decodeCommand
    split
    · rfl
    · rename_i hz
      have hz : (w.extractLsb' 8 24).toNat = 0 := by rw [not_not.mp hz]; rfl
      rw [extractLsb'_toNat_div] at hz
      simp only [extractLsb'_toNat_div]
      split <;> first | rfl | omega
  · have hw : w.toNat = 0 ∨ w.toNat = 1 ∨ w.toNat = 2 ∨ w.toNat = 3 := by omega
    rcases hw with hw | hw | hw | hw
    · obtain rfl : w = 0 := BitVec.eq_of_toNat_eq hw
      decide
    · obtain rfl : w = 1 := BitVec.eq_of_toNat_eq hw
      decide
    · obtain rfl : w = 2 := BitVec.eq_of_toNat_eq hw
      decide
    · obtain rfl : w = 3 := BitVec.eq_of_toNat_eq hw
      decide

end Sys2Proof
end

