-- ==== Sys2Proof/Laws/Memory.lean ====
section
/-! SUPPORT. The laws of the WORK memory: read after write, and that every operation keeps the canonical form. -/

namespace Sys2Proof.Machine

variable {P : Params} {m : Memory} {a a' lo : Nat} {b : Byte}

@[simp] theorem Memory.read_nil : Memory.read P [] a = Memory.unlisted P a := rfl

theorem Memory.read_cons (c : Host.Cell) :
    Memory.read P (c :: m) a = if c.1 = a then c.2 else Memory.read P m a := rfl

theorem Memory.read_insert : Memory.read P (Memory.insert a b m) a' = if a = a' then b else Memory.read P m a' := by
  induction m with
  | nil => simp [Memory.insert, Memory.read_cons]
  | cons c m ih =>
    obtain ⟨x, v⟩ := c
    simp only [Memory.insert]
    split
    · simp [Memory.read_cons]
    · split
      · subst_vars
        simp only [Memory.read_cons]
        split <;> rfl
      · simp only [Memory.read_cons, ih]
        split <;> split <;> first | rfl | omega

theorem Memory.read_erase :
    Memory.read P (Memory.erase a m) a' = if a = a' then Memory.unlisted P a' else Memory.read P m a' := by
  induction m with
  | nil => simp [Memory.erase]
  | cons c m ih =>
    obtain ⟨x, v⟩ := c
    simp only [Memory.erase] at ih ⊢
    by_cases h : x = a
    · subst h
      rw [List.filter_cons_of_neg (by simp), ih, Memory.read_cons]
      split <;> simp_all
    · rw [List.filter_cons_of_pos (by simpa using h), Memory.read_cons, Memory.read_cons, ih]
      dsimp only
      split <;> split <;> first | rfl | omega

/-- The read after a write: the byte written at its address, the old byte everywhere else. -/
theorem Memory.read_write : Memory.read P (Memory.write P m a b) a' = if a = a' then b else Memory.read P m a' := by
  unfold Memory.write
  split
  · rename_i h
    rw [Memory.read_erase]
    split
    · subst_vars; rfl
    · rfl
  · exact Memory.read_insert

theorem Memory.rising_mono (h : Memory.rising lo m = true) {lo' : Nat} (hlo : lo' ≤ lo) :
    Memory.rising lo' m = true := by
  cases m with
  | nil => rfl
  | cons c m =>
    obtain ⟨x, v⟩ := c
    simp only [Memory.rising, Bool.and_eq_true, decide_eq_true_eq] at h ⊢
    exact ⟨by omega, h.2⟩

theorem Memory.rising_insert (h : Memory.rising lo m = true) (ha : lo ≤ a) :
    Memory.rising lo (Memory.insert a b m) = true := by
  induction m generalizing lo with
  | nil => simp [Memory.insert, Memory.rising, ha]
  | cons c m ih =>
    obtain ⟨x, v⟩ := c
    simp only [Memory.rising, Bool.and_eq_true, decide_eq_true_eq] at h
    simp only [Memory.insert]
    split
    · simp only [Memory.rising, Bool.and_eq_true, decide_eq_true_eq]
      exact ⟨ha, by omega, h.2⟩
    · split
      · subst_vars
        simp only [Memory.rising, Bool.and_eq_true, decide_eq_true_eq]
        exact h
      · simp only [Memory.rising, Bool.and_eq_true, decide_eq_true_eq]
        exact ⟨h.1, ih h.2 (by omega)⟩

theorem Memory.rising_erase (h : Memory.rising lo m = true) : Memory.rising lo (Memory.erase a m) = true := by
  induction m generalizing lo with
  | nil => rfl
  | cons c m ih =>
    obtain ⟨x, v⟩ := c
    simp only [Memory.rising, Bool.and_eq_true, decide_eq_true_eq] at h
    simp only [Memory.erase] at ih ⊢
    by_cases hx : x = a
    · rw [List.filter_cons_of_neg (by simpa using hx)]
      exact Memory.rising_mono (ih h.2) (by omega)
    · rw [List.filter_cons_of_pos (by simpa using hx)]
      simp only [Memory.rising, Bool.and_eq_true, decide_eq_true_eq]
      exact ⟨h.1, ih h.2⟩

theorem Memory.mem_insert {c : Host.Cell} (h : c ∈ Memory.insert a b m) : c = (a, b) ∨ c ∈ m := by
  induction m with
  | nil => simpa [Memory.insert] using h
  | cons d m ih =>
    obtain ⟨x, v⟩ := d
    simp only [Memory.insert] at h
    split at h
    · simpa using h
    · split at h
      · simp only [List.mem_cons] at h ⊢; tauto
      · simp only [List.mem_cons] at h ⊢
        rcases h with h | h
        · exact .inr (.inl h)
        · exact (ih h).imp id .inr

/-- The canonical form, cell by cell. -/
theorem Memory.wf_iff : Memory.wf P m = true ↔ Memory.rising workBase m = true ∧
    ∀ c ∈ m, c.1 < workBase + P.hdrBytes ∧ c.2 ≠ Memory.unlisted P c.1 := by
  simp [Memory.wf, List.all_eq_true, bne_iff_ne]

theorem Memory.wf_nil : Memory.wf P [] = true := rfl

/-- A write inside the WORK window keeps the canonical form. -/
theorem Memory.wf_write (h : Memory.wf P m = true) (hlo : workBase ≤ a) (hhi : a < workBase + P.hdrBytes) :
    Memory.wf P (Memory.write P m a b) = true := by
  rw [Memory.wf_iff] at h ⊢
  unfold Memory.write
  split
  · exact ⟨Memory.rising_erase h.1, fun c hc => h.2 c (List.mem_filter.mp hc).1⟩
  · rename_i hb
    refine ⟨Memory.rising_insert h.1 hlo, fun c hc => ?_⟩
    rcases Memory.mem_insert hc with rfl | hc
    · exact ⟨hhi, hb⟩
    · exact h.2 c hc

/-- The memory of the reset state is in canonical form. -/
theorem Memory.wf_reset : Memory.wf Config.params State.reset.engine.work = true := rfl

/-- PREP reads the window byte by byte. -/
@[simp] theorem windowBytes_length : (windowBytes P m).length = P.hdrBytes := by simp [windowBytes]

theorem windowBytes_getElem {k : Nat} (h : k < (windowBytes P m).length) :
    (windowBytes P m)[k] = Memory.read P m (workBase + k) := by simp [windowBytes]

end Sys2Proof.Machine
end

