-- ==== Sys2Proof/Laws/State.lean ====
section
/-! SUPPORT. What each named update does to each field, so that no later proof unfolds a record update. -/

namespace Sys2Proof.Machine

section StateUpdates

variable (s : State) (e : Engine) (lines : List ScriptLine) (r : Response)

@[simp] theorem State.setEngine_engine : (s.setEngine e).engine = e := rfl
@[simp] theorem State.setEngine_script : (s.setEngine e).script = s.script := rfl
@[simp] theorem State.setEngine_responses : (s.setEngine e).responses = s.responses := rfl
@[simp] theorem State.setScript_engine : (s.setScript lines).engine = s.engine := rfl
@[simp] theorem State.setScript_script : (s.setScript lines).script = lines := rfl
@[simp] theorem State.setScript_responses : (s.setScript lines).responses = s.responses := rfl
@[simp] theorem State.respond_engine : (s.respond r).engine = s.engine := rfl
@[simp] theorem State.respond_script : (s.respond r).script = s.script := rfl
@[simp] theorem State.respond_responses : (s.respond r).responses = r :: s.responses := rfl

theorem State.setEngine_self : s.setEngine s.engine = s := rfl

theorem State.setScript_self : s.setScript s.script = s := rfl

end StateUpdates

section EngineUpdates

variable (P : Params) (e : Engine) (c : Err) (pad : List Byte)

@[simp] theorem Engine.raise_phase : (e.raise c).phase = .fault := rfl
@[simp] theorem Engine.raise_chunk : (e.raise c).chunk = e.chunk := rfl
@[simp] theorem Engine.raise_prepOk : (e.raise c).prepOk = e.prepOk := rfl
@[simp] theorem Engine.raise_branch : (e.raise c).branch = e.branch := rfl
@[simp] theorem Engine.raise_ill : (e.raise c).ill = e.ill := rfl
@[simp] theorem Engine.raise_err : (e.raise c).err = c := rfl
@[simp] theorem Engine.raise_workLen : (e.raise c).workLen = e.workLen := rfl
@[simp] theorem Engine.raise_hdrLen : (e.raise c).hdrLen = e.hdrLen := rfl
@[simp] theorem Engine.raise_version : (e.raise c).version = e.version := rfl
@[simp] theorem Engine.raise_digest : (e.raise c).digest = e.digest := rfl
@[simp] theorem Engine.raise_work : (e.raise c).work = e.work := rfl
@[simp] theorem Engine.raise_hdr : (e.raise c).hdr = e.hdr := rfl
@[simp] theorem Engine.raise_sp1 : (e.raise c).sp1 = none := rfl
@[simp] theorem Engine.raise_sp2 : (e.raise c).sp2 = noChunks := rfl

@[simp] theorem Engine.clr_phase : (e.clr).phase = .idle := rfl
@[simp] theorem Engine.clr_chunk : (e.clr).chunk = e.chunk := rfl
@[simp] theorem Engine.clr_prepOk : (e.clr).prepOk = e.prepOk := rfl
@[simp] theorem Engine.clr_branch : (e.clr).branch = false := rfl
@[simp] theorem Engine.clr_ill : (e.clr).ill = false := rfl
@[simp] theorem Engine.clr_err : (e.clr).err = .none := rfl
@[simp] theorem Engine.clr_workLen : (e.clr).workLen = e.workLen := rfl
@[simp] theorem Engine.clr_hdrLen : (e.clr).hdrLen = e.hdrLen := rfl
@[simp] theorem Engine.clr_version : (e.clr).version = e.version := rfl
@[simp] theorem Engine.clr_digest : (e.clr).digest = zeroDigest := rfl
@[simp] theorem Engine.clr_work : (e.clr).work = e.work := rfl
@[simp] theorem Engine.clr_hdr : (e.clr).hdr = e.hdr := rfl
@[simp] theorem Engine.clr_sp1 : (e.clr).sp1 = e.sp1 := rfl
@[simp] theorem Engine.clr_sp2 : (e.clr).sp2 = e.sp2 := rfl

@[simp] theorem Engine.reject_phase : (e.reject).phase = e.phase := rfl
@[simp] theorem Engine.reject_chunk : (e.reject).chunk = e.chunk := rfl
@[simp] theorem Engine.reject_prepOk : (e.reject).prepOk = e.prepOk := rfl
@[simp] theorem Engine.reject_branch : (e.reject).branch = e.branch := rfl
@[simp] theorem Engine.reject_ill : (e.reject).ill = true := rfl
@[simp] theorem Engine.reject_err : (e.reject).err = e.err := rfl
@[simp] theorem Engine.reject_workLen : (e.reject).workLen = e.workLen := rfl
@[simp] theorem Engine.reject_hdrLen : (e.reject).hdrLen = e.hdrLen := rfl
@[simp] theorem Engine.reject_version : (e.reject).version = e.version := rfl
@[simp] theorem Engine.reject_digest : (e.reject).digest = e.digest := rfl
@[simp] theorem Engine.reject_work : (e.reject).work = e.work := rfl
@[simp] theorem Engine.reject_hdr : (e.reject).hdr = e.hdr := rfl
@[simp] theorem Engine.reject_sp1 : (e.reject).sp1 = e.sp1 := rfl
@[simp] theorem Engine.reject_sp2 : (e.reject).sp2 = e.sp2 := rfl

@[simp] theorem Engine.reset_phase : (e.reset).phase = .idle := rfl
@[simp] theorem Engine.reset_chunk : (e.reset).chunk = 0 := rfl
@[simp] theorem Engine.reset_prepOk : (e.reset).prepOk = false := rfl
@[simp] theorem Engine.reset_branch : (e.reset).branch = false := rfl
@[simp] theorem Engine.reset_ill : (e.reset).ill = false := rfl
@[simp] theorem Engine.reset_err : (e.reset).err = .none := rfl
@[simp] theorem Engine.reset_workLen : (e.reset).workLen = 0 := rfl
@[simp] theorem Engine.reset_hdrLen : (e.reset).hdrLen = 0 := rfl
@[simp] theorem Engine.reset_version : (e.reset).version = 0 := rfl
@[simp] theorem Engine.reset_digest : (e.reset).digest = zeroDigest := rfl
@[simp] theorem Engine.reset_work : (e.reset).work = e.work := rfl
@[simp] theorem Engine.reset_hdr : (e.reset).hdr = e.hdr := rfl
@[simp] theorem Engine.reset_sp1 : (e.reset).sp1 = none := rfl
@[simp] theorem Engine.reset_sp2 : (e.reset).sp2 = noChunks := rfl

@[simp] theorem Engine.prep_phase : (e.prep P).phase = e.phase := rfl
@[simp] theorem Engine.prep_chunk : (e.prep P).chunk = e.chunk := rfl
@[simp] theorem Engine.prep_prepOk : (e.prep P).prepOk = true := rfl
@[simp] theorem Engine.prep_branch : (e.prep P).branch = e.branch := rfl
@[simp] theorem Engine.prep_ill : (e.prep P).ill = e.ill := rfl
@[simp] theorem Engine.prep_err : (e.prep P).err = e.err := rfl
@[simp] theorem Engine.prep_workLen : (e.prep P).workLen = e.workLen := rfl
@[simp] theorem Engine.prep_hdrLen : (e.prep P).hdrLen = e.workLen := rfl
@[simp] theorem Engine.prep_version : (e.prep P).version = e.version := rfl
@[simp] theorem Engine.prep_digest : (e.prep P).digest = e.digest := rfl
@[simp] theorem Engine.prep_work : (e.prep P).work = e.work := rfl
@[simp] theorem Engine.prep_hdr : (e.prep P).hdr = windowBytes P e.work := rfl
@[simp] theorem Engine.prep_sp1 : (e.prep P).sp1 = e.sp1 := rfl
@[simp] theorem Engine.prep_sp2 : (e.prep P).sp2 = e.sp2 := rfl

@[simp] theorem Engine.beginRun_phase : (e.beginRun P).phase = .expand := rfl
@[simp] theorem Engine.beginRun_chunk : (e.beginRun P).chunk = 0 := rfl
@[simp] theorem Engine.beginRun_prepOk : (e.beginRun P).prepOk = e.prepOk := rfl
@[simp] theorem Engine.beginRun_branch : (e.beginRun P).branch = branchOf (versionOf P e.hdr) := rfl
@[simp] theorem Engine.beginRun_ill : (e.beginRun P).ill = e.ill := rfl
@[simp] theorem Engine.beginRun_err : (e.beginRun P).err = e.err := rfl
@[simp] theorem Engine.beginRun_workLen : (e.beginRun P).workLen = e.workLen := rfl
@[simp] theorem Engine.beginRun_hdrLen : (e.beginRun P).hdrLen = e.hdrLen := rfl
@[simp] theorem Engine.beginRun_version : (e.beginRun P).version = versionOf P e.hdr := rfl
@[simp] theorem Engine.beginRun_digest : (e.beginRun P).digest = e.digest := rfl
@[simp] theorem Engine.beginRun_work : (e.beginRun P).work = e.work := rfl
@[simp] theorem Engine.beginRun_hdr : (e.beginRun P).hdr = e.hdr := rfl
@[simp] theorem Engine.beginRun_sp1 : (e.beginRun P).sp1 = none := rfl
@[simp] theorem Engine.beginRun_sp2 : (e.beginRun P).sp2 = noChunks := rfl

@[simp] theorem Engine.copyChunk_phase :
    (e.copyChunk P pad).phase = if e.chunk.toNat + 1 = KPOW_MUL then .reduce else e.phase :=
  rfl
@[simp] theorem Engine.copyChunk_chunk : (e.copyChunk P pad).chunk = e.chunk + 1 := rfl
@[simp] theorem Engine.copyChunk_prepOk : (e.copyChunk P pad).prepOk = e.prepOk := rfl
@[simp] theorem Engine.copyChunk_branch : (e.copyChunk P pad).branch = e.branch := rfl
@[simp] theorem Engine.copyChunk_ill : (e.copyChunk P pad).ill = e.ill := rfl
@[simp] theorem Engine.copyChunk_err : (e.copyChunk P pad).err = e.err := rfl
@[simp] theorem Engine.copyChunk_workLen : (e.copyChunk P pad).workLen = e.workLen := rfl
@[simp] theorem Engine.copyChunk_hdrLen : (e.copyChunk P pad).hdrLen = e.hdrLen := rfl
@[simp] theorem Engine.copyChunk_version : (e.copyChunk P pad).version = e.version := rfl
@[simp] theorem Engine.copyChunk_digest : (e.copyChunk P pad).digest = e.digest := rfl
@[simp] theorem Engine.copyChunk_work : (e.copyChunk P pad).work = e.work := rfl
@[simp] theorem Engine.copyChunk_hdr : (e.copyChunk P pad).hdr = e.hdr := rfl
@[simp] theorem Engine.copyChunk_sp1 : (e.copyChunk P pad).sp1 = e.sp1 := rfl
@[simp] theorem Engine.copyChunk_sp2 :
    (e.copyChunk P pad).sp2 = e.sp2.setIfInBounds e.chunk.toNat (some (chunkOf P pad (KPOW_MUL - 1 - e.chunk.toNat))) :=
  rfl

end EngineUpdates

section Reset

variable (P : Params)

@[simp] theorem Engine.afterReset_phase : (Engine.afterReset P).phase = .idle := rfl
@[simp] theorem Engine.afterReset_chunk : (Engine.afterReset P).chunk = 0 := rfl
@[simp] theorem Engine.afterReset_prepOk : (Engine.afterReset P).prepOk = false := rfl
@[simp] theorem Engine.afterReset_branch : (Engine.afterReset P).branch = false := rfl
@[simp] theorem Engine.afterReset_ill : (Engine.afterReset P).ill = false := rfl
@[simp] theorem Engine.afterReset_err : (Engine.afterReset P).err = .none := rfl
@[simp] theorem Engine.afterReset_workLen : (Engine.afterReset P).workLen = 0 := rfl
@[simp] theorem Engine.afterReset_hdrLen : (Engine.afterReset P).hdrLen = 0 := rfl
@[simp] theorem Engine.afterReset_version : (Engine.afterReset P).version = 0 := rfl
@[simp] theorem Engine.afterReset_digest : (Engine.afterReset P).digest = zeroDigest := rfl
@[simp] theorem Engine.afterReset_work : (Engine.afterReset P).work = [] := rfl
@[simp] theorem Engine.afterReset_hdr : (Engine.afterReset P).hdr = powerUpHdr P := rfl
@[simp] theorem Engine.afterReset_sp1 : (Engine.afterReset P).sp1 = none := rfl
@[simp] theorem Engine.afterReset_sp2 : (Engine.afterReset P).sp2 = noChunks := rfl

@[simp] theorem State.reset_engine : State.reset.engine = Engine.afterReset Config.params := rfl
@[simp] theorem State.reset_script : State.reset.script = [] := rfl
@[simp] theorem State.reset_responses : State.reset.responses = [] := rfl

end Reset

end Sys2Proof.Machine
end

