-- ==== Sys2Proof/Laws/Ops.lean ====
section
/-! SUPPORT. What each shared operation can do, said once. -/

namespace Sys2Proof.Machine

variable {P : Params} {e e' : Engine} {s t : State} {addr : Addr} {pad : List Byte} {w v : Word} {b : Byte}

section Arms

variable (s : State) (addr : Addr) (d : Word)

theorem exec_rd8 : exec (.rd8 addr) s = .next (s.respond (memRead8 Config.params s.engine addr)) := rfl
theorem exec_rd32 : exec (.rd32 addr) s = .next (s.respond (memRead32 s.engine addr)) := rfl
theorem exec_wr8 : exec (.wr8 addr d) s = .next (memWrite8 Config.params addr (d.extractLsb' 0 8) s) := rfl
theorem exec_wr32 : exec (.wr32 addr d) s = .next (memWrite32 Config.params addr d s) := rfl
theorem exec_nop : exec .nop s = .next (s.command Config.params .nop) := rfl
theorem exec_prep : exec .prep s = .next (s.command Config.params .prep) := rfl
theorem exec_hash : exec .hash s = .next (s.command Config.params .hash) := rfl
theorem exec_clr : exec .clr s = .next (s.command Config.params .clr) := rfl
theorem exec_expand : exec .expand s = stageStep .expand (fun e => .ok (e.expand Config.params)) s := rfl
theorem exec_revcopy : exec .revcopy s = stageStep .reorder (Engine.revcopy Config.params) s := rfl
theorem exec_reduce : exec .reduce s = stageStep .reduce (Engine.reduce Config.params) s := rfl

end Arms

/-- The register decoder, address by address (R51). -/
theorem registerAt_eq_some {r : Register} : registerAt addr = some r ↔
    (addr.toNat = 0 ∧ r = .cmd) ∨ (addr.toNat = 4 ∧ r = .status) ∨ (addr.toNat = 8 ∧ r = .workLen) ∨
    (addr.toNat = 12 ∧ r = .hdrLen) ∨ (addr.toNat = 16 ∧ r = .version) := by
  unfold registerAt
  split <;> cases r <;> simp <;> omega

theorem registerAt_eq_none : registerAt addr = none ↔
    addr.toNat ≠ 0 ∧ addr.toNat ≠ 4 ∧ addr.toNat ≠ 8 ∧ addr.toNat ≠ 12 ∧ addr.toNat ≠ 16 := by
  unfold registerAt
  split <;> simp_all

theorem digestIndex_eq_some {k : Fin 40} : digestIndex addr = some k ↔ addr.toNat = 0x40 + k.val := by
  unfold digestIndex
  split
  · simp only [Option.some.injEq, Fin.ext_iff]; omega
  · simp only [reduceCtorEq, false_iff]; omega

theorem digestIndex_eq_none : digestIndex addr = none ↔ addr.toNat < 0x40 ∨ 0x67 < addr.toNat := by
  unfold digestIndex
  split <;> simp <;> omega

theorem inWorkWindow_iff :
    inWorkWindow P addr = true ↔ workBase ≤ addr.toNat ∧ addr.toNat < workBase + P.hdrBytes := by
  simp [inWorkWindow]

/-- A legal command either has its effect or is rejected (R120). -/
theorem performCommand_cases (c : Command) :
    (commandAccepts c e.phase = true ∧ performCommand P c e = commandEffect P c e) ∨
    (commandAccepts c e.phase = false ∧ performCommand P c e = e.reject) := by
  unfold performCommand
  cases commandAccepts c e.phase <;> simp

/-- START either raises InvalidInput or begins the run (R101). -/
theorem Engine.start_cases :
    (e.hdrLen.toNat < P.hdrBytes ∧ e.start P = e.raise .invalidInput) ∨
    (P.hdrBytes ≤ e.hdrLen.toNat ∧ e.start P = e.beginRun P) := by
  unfold Engine.start
  split <;> simp_all

/-- The write of a command word performs the command or is rejected; `ok` in both cases (R120). -/
theorem State.commandWord_cases :
    (∃ c, decodeCommand w = .ok c ∧ s.commandWord P w = s.command P c) ∨
    ((∃ r, decodeCommand w = .error r) ∧ s.commandWord P w = (s.setEngine s.engine.reject).respond .ok) := by
  unfold State.commandWord
  split <;> simp_all

/-- All a 32-bit write can do (R56). -/
theorem memWrite32_cases :
    (addr.toNat = 0 ∧ memWrite32 P addr v s = s.commandWord P v) ∨
    (addr.toNat = 8 ∧ memWrite32 P addr v s = (s.setEngine { s.engine with workLen := v }).respond .ok) ∨
    ((addr.toNat = 4 ∨ addr.toNat = 12 ∨ addr.toNat = 16) ∧ memWrite32 P addr v s = s.respond .ok) ∨
    ((addr.toNat ≠ 0 ∧ addr.toNat ≠ 4 ∧ addr.toNat ≠ 8 ∧ addr.toNat ≠ 12 ∧ addr.toNat ≠ 16) ∧
      memWrite32 P addr v s = s.respond .buserr) := by
  unfold memWrite32
  split <;> rename_i h <;> first | rw [registerAt_eq_some] at h | rw [registerAt_eq_none] at h
  all_goals simp_all

/-- All a byte write can do (R56). -/
theorem memWrite8_cases :
    ((0x40 ≤ addr.toNat ∧ addr.toNat ≤ 0x67) ∧ memWrite8 P addr b s = s.respond .ok) ∨
    ((workBase ≤ addr.toNat ∧ addr.toNat < workBase + P.hdrBytes) ∧ memWrite8 P addr b s =
      (s.setEngine { s.engine with work := Memory.write P s.engine.work addr.toNat b }).respond .ok) ∨
    (((addr.toNat < 0x40 ∨ 0x67 < addr.toNat) ∧ ¬(workBase ≤ addr.toNat ∧ addr.toNat < workBase + P.hdrBytes)) ∧
      memWrite8 P addr b s = s.respond .buserr) := by
  unfold memWrite8
  split
  · rename_i k h
    rw [digestIndex_eq_some] at h
    exact .inl ⟨by omega, rfl⟩
  · rename_i h
    rw [digestIndex_eq_none] at h
    split <;> rename_i hw
    · exact .inr (.inl ⟨inWorkWindow_iff.mp hw, rfl⟩)
    · exact .inr (.inr ⟨⟨h, fun hc => hw (inWorkWindow_iff.mpr hc)⟩, rfl⟩)

/-- A stage step that answers a next state ran in its own phase and changed the engine only (R103, R105, R107). -/
theorem stageStep_eq_next {p : Phase} {f : Engine → Except Fault Engine} :
    stageStep p f s = .next t ↔ s.engine.phase = p ∧ ∃ e, f s.engine = .ok e ∧ t = s.setEngine e := by
  unfold stageStep
  split
  · split <;> rename_i h <;> simp_all [eq_comm]
  · simp_all

section Requests

variable (P : Params) (branch : Bool) (pad : List Byte)

/-- The bit length EXPAND asks for fits its 64 bits (R141, R144). -/
@[simp] theorem expandRequest_inBits : (expandRequest P).inBits.toNat = 8 * P.hdrBytes := by
  have := P.hdrBytes_le
  exact Nat.mod_eq_of_lt (by omega)

/-- The byte length EXPAND asks for fits its 32 bits. -/
@[simp] theorem expandRequest_outBytes : (expandRequest P).outBytes.toNat = P.psz := by
  have := P.psz_le
  exact Nat.mod_eq_of_lt (by omega)

@[simp] theorem reduceRequest_inBits : (reduceRequest P branch).inBits.toNat = 8 * P.psz := by
  have := P.psz_le
  exact Nat.mod_eq_of_lt (by omega)

@[simp] theorem reduceRequest_outBytes : (reduceRequest P branch).outBytes.toNat = 40 := rfl

@[simp] theorem reduceRequest_src : (reduceRequest P branch).src = if branch then .sp2 else .sp1 := rfl

/-- REDUCE's request is `SPONGE(X, 8*PSZ, 40)` (R107). -/
theorem reduceRequest_answer : (reduceRequest P branch).answer P pad = spongeHash P pad (8 * P.psz) 40 := by
  unfold SpongeRequest.answer
  rw [reduceRequest_inBits]
  rfl

end Requests

/-- EXPAND's request is `SPONGE(HDR, 8*HDR_BYTES, PSZ)` (R103). -/
theorem Engine.expand_eq : e.expand P = e.storeExpansion (spongeHash P e.hdr (8 * P.hdrBytes) P.psz) := by
  unfold Engine.expand SpongeRequest.answer
  rw [expandRequest_inBits, expandRequest_outBytes]

/-- EXPAND stores the answer, or raises PrimitiveFailure (R103). -/
theorem Engine.expand_cases :
    (spongeHash P e.hdr (8 * P.hdrBytes) P.psz = none ∧ e.expand P = e.raise .primitiveFailure) ∨
    (∃ r, spongeHash P e.hdr (8 * P.hdrBytes) P.psz = some r ∧
      e.expand P = { e with sp1 := some r.toList, phase := if e.branch then .reorder else .reduce }) := by
  rw [Engine.expand_eq]
  unfold Engine.storeExpansion
  split
  · exact .inl ⟨‹_›, rfl⟩
  · exact .inr ⟨_, ‹_›, rfl⟩

/-- REVCOPY runs exactly where SP1 holds a value and CHUNK is at most 545 (R105). -/
theorem Engine.revcopy_eq_ok :
    e.revcopy P = .ok e' ↔ ∃ pad, e.sp1 = some pad ∧ e.chunk.toNat < 546 ∧ e' = e.copyChunk P pad := by
  unfold Engine.revcopy
  split
  · simp_all
  · rename_i pad hp
    simp only [hp, Option.some.injEq, exists_eq_left', KPOW_MUL]
    by_cases h : e.chunk.toNat < 546 <;> simp [h, eq_comm]

/-- REDUCE with its request written out as `SPONGE(X, 8*PSZ, 40)` (R107). -/
theorem Engine.reduce_eq : e.reduce P =
    match e.source (if e.branch then .sp2 else .sp1) with
    | none => .error .scratchpadEmpty
    | some pad => .ok (e.storeDigest (spongeHash P pad (8 * P.psz) 40)) := by
  unfold Engine.reduce
  rw [reduceRequest_src]
  cases e.source (if e.branch then .sp2 else .sp1) with
  | none => rfl
  | some pad => exact congrArg (fun answer => Except.ok (e.storeDigest answer)) (reduceRequest_answer P e.branch pad)

/-- REDUCE runs exactly where its source scratchpad holds a value; it stores the answer or raises PrimitiveFailure
(R107). -/
theorem Engine.reduce_eq_ok : e.reduce P = .ok e' ↔
    ∃ pad, e.source (if e.branch then .sp2 else .sp1) = some pad ∧
      ((spongeHash P pad (8 * P.psz) 40 = none ∧ e' = e.raise .primitiveFailure) ∨
      (∃ d, spongeHash P pad (8 * P.psz) 40 = some d ∧
        e' = { e with digest := d, phase := .done, sp1 := none, sp2 := noChunks })) := by
  rw [Engine.reduce_eq]
  unfold Engine.storeDigest
  split
  · simp_all
  · rename_i h
    simp only [h, Option.some.injEq, exists_eq_left', Except.ok.injEq]
    split <;> rename_i hs <;> simp [hs, eq_comm]

end Sys2Proof.Machine
end

