-- ==== Sys2Proof/Laws/PerInstr.lean ====
section
/-! SUPPORT. Per instruction: its encoding is well formed and falls under its own row of spec/opcode_table.json
(30_encoding.md R92). -/

namespace Sys2Proof.Laws.TableRow

/-- An encoding's bits under its format's mask. -/
def masked : Encoded → Nat
  | .request header _ => (header &&& 0x380000).toNat
  | .command w => (w &&& 0xFFFFFFFF).toNat
  | .stage code => (code &&& 0x7).toNat

/-- The `match` of an instruction's row. -/
def rowMatch : Instr → Nat
  | .rd8 _ => 0x000000
  | .rd32 _ => 0x100000
  | .wr8 _ _ => 0x200000
  | .wr32 _ _ => 0x300000
  | .nop => 0x00000000
  | .prep => 0x00000001
  | .hash => 0x00000002
  | .clr => 0x00000003
  | .expand => 0x1
  | .revcopy => 0x2
  | .reduce => 0x3

/-- The instruction's encoding is well formed, and under the mask it is the row's `match`. -/
def Statement (i : Instr) : Prop := (encode i).wellFormed = true ∧ masked (encode i) = rowMatch i

theorem header_wellFormed {header : BitVec 22} (d : Word)
    (h : (header.extractLsb' 19 2).toNat = 0 ∨ (header.extractLsb' 19 2).toNat = 2) :
    (Encoded.request header d).wellFormed = true := by
  rw [extractLsb'_toNat_div] at h
  have hz : header.toNat / 2 ^ 19 % 2 = 0 := by omega
  simp only [Encoded.wellFormed, BitVec.getLsbD, Nat.testBit_eq_decide_div_mod_eq, hz]
  decide

theorem rd8 (addr : Addr) : Statement (.rd8 addr) :=
  ⟨header_wellFormed _ (.inl requestHeader_size), requestHeader_and_mask⟩

theorem rd32 (addr : Addr) : Statement (.rd32 addr) :=
  ⟨header_wellFormed _ (.inr requestHeader_size), requestHeader_and_mask⟩

theorem wr8 (addr : Addr) (wdata : Word) : Statement (.wr8 addr wdata) :=
  ⟨header_wellFormed _ (.inl requestHeader_size), requestHeader_and_mask⟩

theorem wr32 (addr : Addr) (wdata : Word) : Statement (.wr32 addr wdata) :=
  ⟨header_wellFormed _ (.inr requestHeader_size), requestHeader_and_mask⟩

theorem nop : Statement .nop := ⟨rfl, rfl⟩

theorem prep : Statement .prep := ⟨rfl, rfl⟩

theorem hash : Statement .hash := ⟨rfl, rfl⟩

theorem clr : Statement .clr := ⟨rfl, rfl⟩

theorem expand : Statement .expand := ⟨rfl, rfl⟩

theorem revcopy : Statement .revcopy := ⟨rfl, rfl⟩

theorem reduce : Statement .reduce := ⟨rfl, rfl⟩

end Sys2Proof.Laws.TableRow
end

