-- ==== Sys2Proof/Laws/Step.lean ====
section
/-! SUPPORT. What an instruction and a step can do to the engine, said once: the claims over all steps are proved from
`exec_effect` and `step_cases` by cases. -/

namespace Sys2Proof.Machine

/-- `i` performs the command `c`: its own instruction, or the write of its word to CMD. -/
def Performs (i : Instr) (c : Command) : Prop :=
  i = c.instr ∨ ∃ w, i = .wr32 0x00000 w ∧ decodeCommand w = .ok c

/-- What the instruction `i` can do to the engine `e`, with the guard of each way. -/
inductive Effect (P : Params) (i : Instr) (e : Engine) : Engine → Prop where
  /-- A read, a refused or ignored access, or NOP. -/
  | stay : Effect P i e e
  | writeWorkLen (v : Word) (by_ : i = .wr32 0x00008 v) : Effect P i e { e with workLen := v }
  | writeWork (addr : Addr) (d : Word) (by_ : i = .wr8 addr d) (lo : workBase ≤ addr.toNat)
    (hi : addr.toNat < workBase + P.hdrBytes) :
    Effect P i e { e with work := Memory.write P e.work addr.toNat (d.extractLsb' 0 8) }
  | illegal (w : Word) (by_ : i = .wr32 0x00000 w) (bad : 3 < w.toNat) : Effect P i e e.reject
  | reject (c : Command) (by_ : Performs i c) (out : commandAccepts c e.phase = false) : Effect P i e e.reject
  | prep (by_ : Performs i .prep) (idle : e.phase = .idle) : Effect P i e (e.prep P)
  | shortHeader (by_ : Performs i .hash) (idle : e.phase = .idle) (short : e.hdrLen.toNat < P.hdrBytes) :
    Effect P i e (e.raise .invalidInput)
  | beginRun (by_ : Performs i .hash) (idle : e.phase = .idle) (long : P.hdrBytes ≤ e.hdrLen.toNat) :
    Effect P i e (e.beginRun P)
  | clr (by_ : Performs i .clr) (quiet : e.phase.busy = false) : Effect P i e e.clr
  | expandFails (by_ : i = .expand) (ph : e.phase = .expand)
    (ans : spongeHash P e.hdr (8 * P.hdrBytes) P.psz = none) : Effect P i e (e.raise .primitiveFailure)
  | expand (by_ : i = .expand) (ph : e.phase = .expand) (r : Vector Byte P.psz)
    (ans : spongeHash P e.hdr (8 * P.hdrBytes) P.psz = some r) :
    Effect P i e { e with sp1 := some r.toList, phase := if e.branch then .reorder else .reduce }
  | copyChunk (by_ : i = .revcopy) (ph : e.phase = .reorder) (pad : List Byte) (src : e.sp1 = some pad)
    (lt : e.chunk.toNat < 546) : Effect P i e (e.copyChunk P pad)
  | reduceFails (by_ : i = .reduce) (ph : e.phase = .reduce) (pad : List Byte)
    (src : e.source (if e.branch then .sp2 else .sp1) = some pad) (ans : spongeHash P pad (8 * P.psz) 40 = none) :
    Effect P i e (e.raise .primitiveFailure)
  | reduce (by_ : i = .reduce) (ph : e.phase = .reduce) (pad : List Byte)
    (src : e.source (if e.branch then .sp2 else .sp1) = some pad) (d : Vector Byte 40)
    (ans : spongeHash P pad (8 * P.psz) 40 = some d) :
    Effect P i e { e with digest := d, phase := .done, sp1 := none, sp2 := noChunks }

variable {P : Params} {e : Engine} {s t : State} {i : Instr}

theorem Effect.of_command {c : Command} (h : Performs i c) : Effect P i e (performCommand P c e) := by
  rcases performCommand_cases (P := P) (e := e) c with ⟨ha, hp⟩ | ⟨ha, hp⟩ <;> rw [hp]
  · cases c with
    | nop => exact .stay
    | prep => exact .prep h (by cases hp : e.phase <;> simp_all [commandAccepts])
    | hash =>
      have idle : e.phase = .idle := by cases hp : e.phase <;> simp_all [commandAccepts]
      change Effect P i e (e.start P)
      rcases Engine.start_cases (P := P) (e := e) with ⟨hl, hs⟩ | ⟨hl, hs⟩ <;> rw [hs]
      · exact .shortHeader h idle hl
      · exact .beginRun h idle hl
    | clr => exact .clr h (by cases hp : e.phase <;> simp_all [commandAccepts, Phase.busy])
  · exact .reject c h ha

/-- An instruction changes the engine in one of the ways of `Effect`, and never the script. -/
theorem exec_effect (h : exec i s = .next t) :
    Effect Config.params i s.engine t.engine ∧ t.script = s.script := by
  cases i with
  | rd8 addr => cases h; exact ⟨.stay, rfl⟩
  | rd32 addr => cases h; exact ⟨.stay, rfl⟩
  | wr8 addr wdata =>
    cases h
    rcases memWrite8_cases (P := Config.params) (addr := addr) (b := wdata.extractLsb' 0 8) (s := s) with
      ⟨_, h⟩ | ⟨hw, h⟩ | ⟨_, h⟩ <;> rw [h]
    · exact ⟨.stay, rfl⟩
    · exact ⟨.writeWork _ _ rfl hw.1 hw.2, rfl⟩
    · exact ⟨.stay, rfl⟩
  | wr32 addr wdata =>
    cases h
    rcases memWrite32_cases (P := Config.params) (addr := addr) (v := wdata) (s := s) with
      ⟨ha, h⟩ | ⟨ha, h⟩ | ⟨_, h⟩ | ⟨_, h⟩ <;> rw [h]
    · obtain rfl : addr = 0 := BitVec.eq_of_toNat_eq ha
      rcases State.commandWord_cases (P := Config.params) (w := wdata) (s := s) with ⟨c, hd, h⟩ | ⟨⟨r, hd⟩, h⟩ <;> rw [h]
      · exact ⟨.of_command (.inr ⟨_, rfl, hd⟩), rfl⟩
      · rcases decodeCommand_cases wdata with ⟨_, hc⟩ | ⟨_, hc⟩ | ⟨_, hc⟩ | ⟨_, hc⟩ | ⟨hc, _⟩
        all_goals first | exact ⟨.illegal _ rfl hc, rfl⟩ | (rw [hc] at hd; cases hd)
    · obtain rfl : addr = 8 := BitVec.eq_of_toNat_eq ha
      exact ⟨.writeWorkLen _ rfl, rfl⟩
    · exact ⟨.stay, rfl⟩
    · exact ⟨.stay, rfl⟩
  | nop => cases h; exact ⟨.of_command (c := .nop) (.inl rfl), rfl⟩
  | prep => cases h; exact ⟨.of_command (c := .prep) (.inl rfl), rfl⟩
  | hash => cases h; exact ⟨.of_command (c := .hash) (.inl rfl), rfl⟩
  | clr => cases h; exact ⟨.of_command (c := .clr) (.inl rfl), rfl⟩
  | expand =>
    rw [exec_expand] at h
    obtain ⟨ph, e, he, rfl⟩ := stageStep_eq_next.mp h
    cases he
    rcases Engine.expand_cases (P := Config.params) (e := s.engine) with ⟨ha, h⟩ | ⟨r, ha, h⟩ <;>
      simp only [State.setEngine_engine, State.setEngine_script, h, and_true]
    · exact .expandFails rfl ph ha
    · exact .expand rfl ph r ha
  | revcopy =>
    rw [exec_revcopy] at h
    obtain ⟨ph, e, he, rfl⟩ := stageStep_eq_next.mp h
    obtain ⟨pad, hp, hc, rfl⟩ := Engine.revcopy_eq_ok.mp he
    exact ⟨.copyChunk rfl ph pad hp hc, rfl⟩
  | reduce =>
    rw [exec_reduce] at h
    obtain ⟨ph, e, he, rfl⟩ := stageStep_eq_next.mp h
    obtain ⟨pad, hp, ⟨ha, rfl⟩ | ⟨d, ha, rfl⟩⟩ := Engine.reduce_eq_ok.mp he
    · exact ⟨.reduceFails rfl ph pad hp ha, rfl⟩
    · exact ⟨.reduce rfl ph pad hp d ha, rfl⟩

/-- The next step of `s` runs `i` in the state `u`: it is the request of the script's next line, or the stage step of a
`STEP` mark or of an empty script. -/
inductive Runs (s : State) : Instr → State → Prop where
  | request (header : BitVec 22) (d : Word) (rest : List ScriptLine) (i : Instr)
    (line : s.script = .request header d :: rest) (dec : decodeRequest header d = .ok i) :
    Runs s i (s.setScript rest)
  | mark (rest : List ScriptLine) (i : Instr) (line : s.script = .step :: rest)
    (dec : decodeStage s.engine.phase.code = .ok i) : Runs s i (s.setScript rest)
  | free (i : Instr) (line : s.script = []) (dec : decodeStage s.engine.phase.code = .ok i) : Runs s i s

theorem Runs.engine {u : State} (h : Runs s i u) : u.engine = s.engine := by cases h <;> rfl

/-- All a step can be: the RESET event, an instruction, a reserved request answered `buserr`, or a turn of the sequencer
with no stage step to take. -/
theorem step_cases (s : State) :
    (∃ rest, s.script = .reset :: rest ∧ step s = .next ((s.setScript rest).setEngine s.engine.reset)) ∨
    (∃ i u, Runs s i u ∧ step s = exec i u) ∨
    (∃ header d rest r, s.script = .request header d :: rest ∧ decodeRequest header d = .error r ∧
      step s = .next ((s.setScript rest).respond .buserr)) ∨
    (∃ rest r, (s.script = .step :: rest ∨ (s.script = [] ∧ rest = [])) ∧
      decodeStage s.engine.phase.code = .error r ∧ step s = .next (s.setScript rest)) := by
  unfold step fetch
  cases hs : s.script with
  | nil =>
    simp only [sequencerTurn]
    cases hd : decodeStage s.engine.phase.code with
    | ok i => exact .inr (.inl ⟨i, s, .free i hs hd, rfl⟩)
    | error r => exact .inr (.inr (.inr ⟨[], r, .inr ⟨by trivial, rfl⟩, rfl, by rw [← hs]; rfl⟩))
  | cons line rest =>
    cases line with
    | reset => exact .inl ⟨rest, rfl, rfl⟩
    | step =>
      simp only [sequencerTurn, State.setScript_engine]
      cases hd : decodeStage s.engine.phase.code with
      | ok i => exact .inr (.inl ⟨i, _, .mark rest i hs hd, rfl⟩)
      | error r => exact .inr (.inr (.inr ⟨rest, r, .inl rfl, rfl, rfl⟩))
    | request header d =>
      simp only [requestTurn]
      cases hd : decodeRequest header d with
      | ok i => exact .inr (.inl ⟨i, _, .request header d rest i hs hd, rfl⟩)
      | error r => exact .inr (.inr (.inl ⟨header, d, rest, r, rfl, hd, rfl⟩))

/-- A step that answers a next state was RESET, ran an instruction with an `Effect` on the engine, or left the engine as it
was. -/
theorem step_effect (h : step s = .next t) :
    ((∃ rest, s.script = .reset :: rest) ∧ t.engine = s.engine.reset) ∨
    (∃ i u, Runs s i u ∧ Effect Config.params i s.engine t.engine) ∨
    t.engine = s.engine := by
  rcases step_cases s with ⟨rest, hs, hn⟩ | ⟨i, u, hr, hn⟩ | ⟨_, _, rest, _, _, _, hn⟩ | ⟨rest, _, _, _, hn⟩ <;>
    rw [hn] at h
  · cases h; exact .inl ⟨⟨rest, hs⟩, rfl⟩
  · exact .inr (.inl ⟨i, u, hr, hr.engine ▸ (exec_effect h).1⟩)
  · cases h; exact .inr (.inr rfl)
  · cases h; exact .inr (.inr rfl)

/-- A stage step that the sequencer takes is the one of its phase. -/
theorem decodeStage_code {p : Phase} : decodeStage p.code = .ok i ↔
    (p = .expand ∧ i = .expand) ∨ (p = .reorder ∧ i = .revcopy) ∨ (p = .reduce ∧ i = .reduce) := by
  cases p <;> simp [Phase.code, decodeStage, eq_comm]

/-- The sequencer has no stage step exactly where the engine is not busy. -/
theorem decodeStage_code_error {p : Phase} : (∃ r, decodeStage p.code = .error r) ↔ p.busy = false := by
  cases p <;> simp [Phase.code, decodeStage, Phase.busy]

end Sys2Proof.Machine
end

