-- ==== Sys2Proof/Tests/Slice0.lean ====
section
/-! SUPPORT. Tests. Expected values come from spec/30_encoding.md and spec/95_test_vectors.md; the `test_hyp_` theorems show
inputs that meet the hypotheses of each statement of Certificates/Slice0/Obligations.lean. -/

namespace Sys2Proof.Tests

open Sys2Proof Sys2Proof.Machine

/-! ### Decoding, words written out from R82, R83, R86 -/

theorem test_decode_rd8 : decode (.request 0b0001000000000000000011 0) = .ok (.rd8 0x40003) := by decide

theorem test_decode_rd32 : decode (.request 0b0100000000000000001100 0) = .ok (.rd32 0x0000C) := by decide

theorem test_decode_wr8 : decode (.request 0b1001000000000000000001 0x1FF) = .ok (.wr8 0x40001 0x1FF) := by decide

theorem test_decode_wr32 : decode (.request 0b1100000000000000001000 0x12345678) = .ok (.wr32 0x00008 0x12345678) := by
  decide

theorem test_decode_nop : decode (.command 0b00000000000000000000000000000000) = .ok .nop := by decide

theorem test_decode_prep : decode (.command 0b00000000000000000000000000000001) = .ok .prep := by decide

theorem test_decode_hash : decode (.command 0b00000000000000000000000000000010) = .ok .hash := by decide

theorem test_decode_clr : decode (.command 0b00000000000000000000000000000011) = .ok .clr := by decide

theorem test_decode_expand : decode (.stage 0b001) = .ok .expand := by decide

theorem test_decode_revcopy : decode (.stage 0b010) = .ok .revcopy := by decide

theorem test_decode_reduce : decode (.stage 0b011) = .ok .reduce := by decide

/-- Every header of 95_test_vectors.md 2.7 whose line shows another address or width. -/
theorem test_decode_vectors :
    decode (.request 0x100014 0) = .ok (.rd32 0x00014) ∧ decode (.request 0x07FFFF 0) = .ok (.rd8 0x7FFFF) ∧
    decode (.request 0x200008 5) = .ok (.wr8 0x00008 5) ∧ decode (.request 0x340000 0) = .ok (.wr32 0x40000 0) := by
  decide

/-- The whole numbered word of a write, `wdata` above the header (R83, R90). -/
theorem test_decodeTableWord_wr32 :
    decodeTableWord 54 (0x300008 + 2 ^ 22 * 0x12345678) = some (.wr32 0x00008 0x12345678) := by decide

/-! ### Well-formedness: an ill-formed encoding for each check (R88), refused by name -/

theorem test_wellFormed_size01 : (Encoded.request 0x080004 0).wellFormed = false ∧
    decode (.request 0x080004 0) = .error .reservedSize := by decide

theorem test_wellFormed_size11 : (Encoded.request 0x380008 0x12345678).wellFormed = false ∧
    decode (.request 0x380008 0x12345678) = .error .reservedSize := by decide

theorem test_wellFormed_op : (Encoded.command 0x00000004).wellFormed = false ∧
    decode (.command 0x00000004) = .error .illegalCommand := by decide

theorem test_wellFormed_zero_field : (Encoded.command 0x00000102).wellFormed = false ∧
    decode (.command 0x00000102) = .error .illegalCommand := by decide

theorem test_wellFormed_stage : ∀ code : BitVec 3, code = 0 ∨ code = 4 ∨ code = 5 ∨ code = 6 ∨ code = 7 →
    (Encoded.stage code).wellFormed = false ∧ decode (.stage code) = .error .noStageStep := by decide

theorem test_wellFormed_instr : (Instr.wr8 0x7FFFF 0xFFFFFFFF).wellFormed = true := by decide

/-! ### The toy instantiation of 95_test_vectors.md section 0 -/

/-- The bytes `TOY_SPONGE` squeezes from the seed `x`. -/
def toyBytes : Nat → Nat → List Byte
  | 0, _ => []
  | n + 1, x =>
    BitVec.ofNat 8 ((x * 1103515245 + 12345) % 2 ^ 32 / 65536) :: toyBytes n ((x * 1103515245 + 12345) % 2 ^ 32)

theorem toyBytes_length (n x : Nat) : (toyBytes n x).length = n := by
  induction n generalizing x <;> simp_all [toyBytes]

/-- What `TOY_SPONGE` has absorbed. -/
def toyAbsorb (bytes : List Byte) : Nat := bytes.foldl (fun acc b => (acc * 33 + b.toNat) % 2 ^ 32) 5381

/-- `TOY_SPONGE`. -/
def toySponge (bytes : List Byte) (inBits outBytes : Nat) : Option (Vector Byte outBytes) :=
  if outBytes = 0 then none
  else some ⟨(toyBytes outBytes ((toyAbsorb (bytes.take (inBits / 8)) * 33 + outBytes) % 2 ^ 32)).toArray,
    by simp [toyBytes_length]⟩

/-- Instantiations T1 (`.rate`) and T2 (`.scratchpad`), with the power-up bytes of the traces of section 3. -/
def toy (size : HdrSize) (order : VerOrder) : Params where
  kratePred := 3
  hdrSize := size
  verOrder := order
  primitive := toySponge
  workInit := fun _ => 0xAA
  hdrInit := fun _ => 0x55

/-- The engine after RESET under T1. -/
def toyEngine : Engine := Engine.afterReset (toy .rate .le)

theorem test_toy_sizes : (toy .rate .le).psz = 2184 ∧ (toy .rate .le).hdrBytes = 4 ∧
    (toy .scratchpad .le).hdrBytes = 2184 := by decide

/-- The fixture's worked evaluation of section 0. -/
theorem test_toySponge : spongeHash (toy .rate .le) [0x00, 0x00, 0x77] 16 3 = some #v[0x4D, 0x8B, 0xEB] := by decide

/-! ### Vectors of 95_test_vectors.md part 2 -/

/-- 2.1: the version pattern and the branch. -/
theorem test_version_table : ∀ r ∈ ([
    ([0x00, 0x00, 0x00, 0x00], .le, 0x00000000, false), ([0x01, 0x00, 0x00, 0x00], .le, 0x00000001, false),
    ([0x01, 0x00, 0x00, 0x00], .be, 0x01000000, true), ([0x02, 0x00, 0x00, 0x00], .le, 0x00000002, true),
    ([0x00, 0x00, 0x00, 0x01], .le, 0x01000000, true), ([0x00, 0x00, 0x00, 0x01], .be, 0x00000001, false),
    ([0x00, 0x00, 0x00, 0x02], .be, 0x00000002, true), ([0xFF, 0xFF, 0xFF, 0xFF], .be, 0xFFFFFFFF, false),
    ([0x00, 0x00, 0x00, 0x80], .le, 0x80000000, false), ([0x00, 0x00, 0x00, 0x80], .be, 0x00000080, true),
    ([0xFF, 0xFF, 0xFF, 0x7F], .le, 0x7FFFFFFF, true), ([0xFF, 0xFF, 0xFF, 0x7F], .be, 0xFFFFFF7F, false)] :
      List (List Byte × VerOrder × Word × Bool)),
    versionOf (toy .rate r.2.1) r.1 = r.2.2.1 ∧ branchOf (versionOf (toy .rate r.2.1) r.1) = r.2.2.2 := by decide

/-- 2.2: STATUS values. -/
theorem test_status_table : ∀ r ∈ ([
    (.idle, false, false, false, .none, 0x00000000), (.idle, true, false, false, .none, 0x00000008),
    (.idle, false, false, true, .none, 0x00000020), (.expand, true, true, false, .none, 0x00000019),
    (.reorder, true, true, false, .none, 0x0000001A), (.reduce, true, false, false, .none, 0x0000000B),
    (.done, true, false, true, .none, 0x0000002C), (.fault, false, false, false, .invalidInput, 0x00000105),
    (.fault, true, true, true, .primitiveFailure, 0x0000023D)] : List (Phase × Bool × Bool × Bool × Err × Word)),
    Engine.status { toyEngine with phase := r.1, prepOk := r.2.1, branch := r.2.2.1, ill := r.2.2.2.1, err := r.2.2.2.2.1 }
      = r.2.2.2.2.2 := by decide

/-- P2 line 9: the copy with CHUNK = 545 takes SP1's first chunk to SP2's last, and ends the loop. -/
theorem test_revcopy_last : ∃ e, e = Engine.copyChunk (toy .rate .le) [0xED, 0xC0, 0xBB, 0x73, 0x57, 0x60, 0x4C, 0xFA]
      { toyEngine with phase := .reorder, chunk := 545 } ∧
    e.sp2[545] = some [0xED, 0xC0, 0xBB, 0x73] ∧ e.chunk = 546 ∧ e.phase = .reduce :=
  ⟨_, rfl, by simp only [Engine.copyChunk_sp2]; exact Vector.getElem_setIfInBounds_self .., rfl, rfl⟩

/-- P2: the copy with CHUNK = 544 takes SP1's second chunk, its bytes in order, and goes on. -/
theorem test_revcopy_next : ∃ e, e = Engine.copyChunk (toy .rate .le) [0xED, 0xC0, 0xBB, 0x73, 0x57, 0x60, 0x4C, 0xFA]
      { toyEngine with phase := .reorder, chunk := 544 } ∧
    e.sp2[544] = some [0x57, 0x60, 0x4C, 0xFA] ∧ e.chunk = 545 ∧ e.phase = .reorder :=
  ⟨_, rfl, by simp only [Engine.copyChunk_sp2]; exact Vector.getElem_setIfInBounds_self .., rfl, rfl⟩

/-- 2.4: the EXPAND request of T2. -/
theorem test_expand_request :
    expandRequest (toy .scratchpad .le) = { src := .hdr, inBits := 17472, dst := .sp1, outBytes := 2184 } := by decide

/-- 2.5: the size guard of T2 at its boundary. -/
theorem test_hash_guard :
    (Engine.start (toy .scratchpad .le) { toyEngine with hdrLen := 2183 }).status = 0x00000105 ∧
    (Engine.start (toy .scratchpad .le) { toyEngine with hdrLen := 2184, hdr := [1, 0, 0, 0] }).phase = .expand ∧
    (Engine.start (toy .scratchpad .le) { toyEngine with hdrLen := 0xFFFFFFFF, hdr := [1, 0, 0, 0] }).phase = .expand := by
  decide

/-- 2.6: a HASH while REORDER is rejected, not InvalidInput; the run goes on. -/
theorem test_hash_busy : (performCommand (toy .rate .le) .hash { toyEngine with phase := .reorder }).status = 0x00000022 := by
  decide

/-- 2.7: the WORK window and its neighbours. -/
theorem test_rd8_window :
    memRead8 (toy .rate .le) { toyEngine with work := [(0x40000, 0x11), (0x40003, 0x44)] } 0x40003 = .ok8 0x44 ∧
    memRead8 (toy .rate .le) toyEngine 0x40000 = .ok8 0xAA ∧ memRead8 (toy .rate .le) toyEngine 0x40004 = .buserr ∧
    memRead8 (toy .rate .le) toyEngine 0x00040 = .ok8 0x00 ∧ memRead8 (toy .rate .le) toyEngine 0x0003F = .buserr ∧
    memRead8 (toy .rate .le) toyEngine 0x00067 = .ok8 0x00 ∧ memRead8 (toy .rate .le) toyEngine 0x00068 = .buserr := by
  decide

/-- 2.7: the registers, a misaligned and a reserved address. -/
theorem test_rd32_registers :
    memRead32 { toyEngine with workLen := 0x12345678 } 0x00008 = .ok32 0x12345678 ∧
    memRead32 toyEngine 0x00000 = .ok32 0 ∧ memRead32 toyEngine 0x00006 = .buserr ∧
    memRead32 toyEngine 0x00014 = .buserr ∧ memRead32 toyEngine 0x00040 = .buserr := by decide

/-- 2.7: WR8 uses `wdata[7:0]`, and writing what power-up left removes the cell. -/
theorem test_wr8_work :
    (memWrite8 (toy .rate .le) 0x40001 ((0x1FF : Word).extractLsb' 0 8) ⟨toyEngine, [], []⟩).engine.work
      = [(0x40001, 0xFF)] ∧
    (memWrite8 (toy .rate .le) 0x40001 0xAA ⟨{ toyEngine with work := [(0x40001, 0xFF)] }, [], []⟩).engine.work = [] := by
  decide

/-- 2.7: a write of a read-only register and of a window answers as the map says. -/
theorem test_wr32_map :
    (memWrite32 (toy .rate .le) 0x00004 0xFFFFFFFF ⟨toyEngine, [], []⟩) = ⟨toyEngine, [], [.ok]⟩ ∧
    (memWrite32 (toy .rate .le) 0x40000 0 ⟨toyEngine, [], []⟩) = ⟨toyEngine, [], [.buserr]⟩ := ⟨rfl, rfl⟩

/-- 2.8: PREP with `WORK_LEN = 7` stages the window's 4 bytes. -/
theorem test_prep : ∃ e, e = Engine.prep (toy .rate .le)
      { toyEngine with work := [(0x40000, 2), (0x40001, 0), (0x40002, 0), (0x40003, 0)], workLen := 7 } ∧
    e.hdr = [2, 0, 0, 0] ∧ e.hdrLen = 7 ∧ e.status = 0x00000008 := ⟨_, rfl, by decide⟩

/-- 2.8: CLR from DONE with a rejected command. -/
theorem test_clr : (performCommand (toy .rate .le) .clr
    { toyEngine with phase := .done, branch := true, ill := true, prepOk := true, version := 2 }).status = 0x00000008 := by
  decide

/-- 2.6: NOP does not clear ILL. -/
theorem test_nop : (performCommand (toy .rate .le) .nop { toyEngine with phase := .expand, ill := true }).status = 0x00000021 := by
  decide

/-- 2.8: RESET in REORDER. -/
theorem test_reset : (Engine.reset
    { toyEngine with phase := .reorder, chunk := 300, branch := true, prepOk := true, workLen := 4 }).status = 0 := by decide

/-- P1 line 10: EXPAND under the fixture, STATUS and the first bytes of SP1. -/
theorem test_expand_toy : ∃ e, e = Engine.expand (toy .rate .le)
      { toyEngine with phase := .expand, prepOk := true, hdr := [1, 0, 0, 0] } ∧
    e.status = 0x0000000B ∧ (e.sp1.map fun pad => pad.take 8) = some [0xFB, 0xF4, 0xF4, 0x12, 0x02, 0x97, 0x4A, 0xF0] :=
  ⟨_, rfl, by decide⟩

/-- P6: a REDUCE whose primitive fails discards the scratchpads and enters FAULT. -/
theorem test_reduce_fails : ∃ e, e = Engine.storeDigest none
      { toyEngine with phase := .reduce, prepOk := true, branch := true, sp1 := some [1] } ∧
    e.status = 0x0000021D ∧ e.sp1 = none := ⟨_, rfl, by decide⟩

/-! ### Inputs that meet the hypotheses of the statements -/

/-- The engine of the reset state. -/
def quiet : Engine := Engine.afterReset Config.params

/-- An engine in IDLE whose staged header passes the size guard whatever `HDR_BYTES` is. -/
def ready : Engine := { quiet with prepOk := true, hdrLen := 0xFFFFFFFF }

/-- A scratchpad of zero bytes. -/
def zeroPad : List Byte := List.replicate Config.params.psz 0

/-- An engine in REORDER with `chunk` chunks copied. -/
def reordering (chunk : BitVec 10) : Engine :=
  { ready with phase := .reorder, branch := true, version := 2, chunk := chunk, sp1 := some zeroPad }

/-- A machine with this engine and these lines to come. -/
def machine (e : Engine) (script : List ScriptLine := []) : State := ⟨e, script, []⟩

theorem ready_long : Config.params.hdrBytes ≤ ready.hdrLen.toNat := by
  have := Config.params.hdrBytes_le
  change Config.params.hdrBytes ≤ 0xFFFFFFFF
  omega

theorem ready_inv : ready.Inv Config.params := by
  refine ⟨⟨?_, ?_, ?_, ?_, ?_, ?_, ?_, ?_, ?_, ?_⟩, ⟨?_, ?_, ?_, ?_, ?_⟩, ?_, ?_⟩ <;>
    simp [ready, quiet, Phase.code, Phase.inRun, Err.code, powerUpHdr, noChunks, Memory.wf_nil]

theorem ready_runCorrect : ready.RunCorrect Config.params := by
  refine ⟨?_, ?_, ?_, ?_, ?_⟩ <;> simp [ready, quiet, Phase.inRun]

theorem joinChunks_empty (n : Nat) : joinChunks (List.replicate n (some [])) = some [] := by
  induction n with
  | zero => rfl
  | succ n ih => rw [List.replicate_succ, joinChunks, ih]; rfl

theorem test_hyp_DecodeEncodeAgree : (Instr.wr32 0x7FFFF 0xFFFFFFFF).wellFormed = true ∧ Instr.revcopy.wellFormed = true :=
  ⟨rfl, rfl⟩

theorem test_hyp_EncodeDecodeAgree : decode (.request 0x100008 5) = .ok (.rd32 0x00008) ∧
    decode (.request 0x3FFFFF 0) = .error .reservedSize ∧ decode (.command 3) = .ok .clr := by decide

theorem test_hyp_StepRunsDecodedInstruction :
    ((machine quiet [lineHash]).script = .request 0x300000 2 :: [] ∧ decode (.request 0x300000 2) = .ok (.wr32 0 2)) ∧
    ((machine (reordering 0) [.step]).script = .step :: [] ∧
      decode (.stage (machine (reordering 0) [.step]).engine.phase.code) = .ok .revcopy) ∧
    ((machine (reordering 0)).script = [] ∧
      decode (.stage (machine (reordering 0)).engine.phase.code) = .ok .revcopy) :=
  ⟨⟨rfl, by decide⟩, ⟨rfl, rfl⟩, rfl, rfl⟩

theorem test_hyp_PlacedWordRunsNext : decodeTableWord 24 0x3FFFFF = none ∧
    decodeTableWord 24 0x37FFFF = some (.wr32 0x7FFFF 0) ∧ decodeTableWord 32 2 = some .hash ∧
    decodeTableWord 22 0x100004 = some (.rd32 0x00004) ∧
    decodeTableWord 54 (0x300008 + 2 ^ 22 * 0xFFFFFFFF) = some (.wr32 0x00008 0xFFFFFFFF) ∧
    decodeTableWord 56 (0x240001 + 2 ^ 22 * 0x1FF) = some (.wr8 0x40001 0x1FF) ∧
    decodeTableWord 3 2 = some .revcopy ∧ decodeTableWord 8 1 = some .expand ∧ decodeTableWord 8 3 = some .reduce := by
  decide

theorem test_hyp_RequestsByWidth :
    (∀ header d, (machine quiet [.request header d]).script = .request header d :: []) ∧
    (0x07FFFF : BitVec 22).extractLsb' 19 3 = 0b000 ∧ (0x100010 : BitVec 22).extractLsb' 19 3 = 0b010 ∧
    (0x200040 : BitVec 22).extractLsb' 19 3 = 0b100 ∧ (0x300000 : BitVec 22).extractLsb' 19 3 = 0b110 :=
  ⟨fun _ _ => rfl, by decide⟩

theorem test_hyp_RequestsByWidth_reserved : (0x080004 : BitVec 22).extractLsb' 19 2 = 0b01 ∧
    (0x380008 : BitVec 22).extractLsb' 19 2 = 0b11 := by decide

theorem test_hyp_ResetEvent : (machine (reordering 300) [.reset, lineHash]).script = .reset :: [lineHash] := rfl

theorem test_hyp_QuietEngineWaits :
    (machine quiet [.step]).engine.phase = .idle ∧ (machine { ready with phase := .done }).engine.phase = .done ∧
    (machine { ready with phase := .fault } [.step]).engine.phase = .fault ∧ (machine quiet).script = [] ∧
    (machine quiet [.step]).script = .step :: [] := ⟨rfl, rfl, rfl, rfl, rfl⟩

/-- The first and the last byte of each window, and the addresses beside them. -/
theorem test_hyp_Rd8ReadsWindow : (0x00040 : Addr).toNat = 0x00040 + (0 : Fin 40).val ∧
    (0x00067 : Addr).toNat = 0x00040 + (39 : Fin 40).val ∧ 0x40000 < 0x40000 + Config.params.hdrBytes ∧
    0x40003 < 0x40000 + Config.params.hdrBytes ∧ ∀ addr ∈ ([0x0003F, 0x00068, 0x3FFFF, 0x7FFFF] : List Addr),
      ¬(0x00040 ≤ addr.toNat ∧ addr.toNat ≤ 0x00067) ∧
      ¬(0x40000 ≤ addr.toNat ∧ addr.toNat < 0x40000 + Config.params.hdrBytes) := by
  have := Config.params.four_le_hdrBytes
  have := Config.params.hdrBytes_le
  refine ⟨rfl, rfl, by omega, by omega, ?_⟩
  simp only [List.mem_cons, List.not_mem_nil, or_false, forall_eq_or_imp, forall_eq]
  rw [show (0x0003F : Addr).toNat = 0x0003F from rfl, show (0x00068 : Addr).toNat = 0x00068 from rfl,
    show (0x3FFFF : Addr).toNat = 0x3FFFF from rfl, show (0x7FFFF : Addr).toNat = 0x7FFFF from rfl]
  omega

theorem test_hyp_Rd8ReadsWindow_zero : (machine ready).engine.MeetsR41 Config.params ∧
    (machine ready).engine.phase ≠ .done ∧ 0x00040 ≤ (0x00067 : Addr).toNat ∧ (0x00067 : Addr).toNat ≤ 0x00067 :=
  ⟨ready_inv.r41, by decide, by decide, by decide⟩

/-- The last byte of the WORK window has an address, and the next address is outside both windows. -/
theorem test_hyp_Wr8StoresByte : ∃ last next : Addr, last.toNat = 0x40000 + Config.params.hdrBytes - 1 ∧
    (0x40000 ≤ last.toNat ∧ last.toNat < 0x40000 + Config.params.hdrBytes) ∧
    next.toNat = 0x40000 + Config.params.hdrBytes ∧ ¬(0x00040 ≤ next.toNat ∧ next.toNat ≤ 0x00067) := by
  have h1 := Config.params.four_le_hdrBytes
  have h2 := Config.params.hdrBytes_le
  generalize Config.params.hdrBytes = n at h1 h2 ⊢
  obtain ⟨last, hl⟩ : ∃ a : Addr, a.toNat = 0x40000 + n - 1 :=
    ⟨BitVec.ofNat 19 (0x40000 + n - 1), by rw [BitVec.toNat_ofNat, Nat.mod_eq_of_lt (by omega)]⟩
  obtain ⟨next, hn⟩ : ∃ a : Addr, a.toNat = 0x40000 + n :=
    ⟨BitVec.ofNat 19 (0x40000 + n), by rw [BitVec.toNat_ofNat, Nat.mod_eq_of_lt (by omega)]⟩
  exact ⟨last, next, hl, by omega, hn, by omega⟩

theorem test_hyp_Wr32WritesRegister : ∀ addr ∈ ([0x00001, 0x00005, 0x00014, 0x40000, 0x7FFFF] : List Addr),
    addr ≠ 0x00000 ∧ addr ≠ 0x00004 ∧ addr ≠ 0x00008 ∧ addr ≠ 0x0000C ∧ addr ≠ 0x00010 := by simp

theorem test_hyp_CommandWordDecoding : decodeCommand 0x00000004 = .error .illegalCommand ∧
    decodeCommand 0xFFFFFFFF = .error .illegalCommand := by decide

theorem test_hyp_CmdWritePerformsCommand :
    decodeCommand 0x00000100 = .error .illegalCommand ∧
    (decodeCommand 0x00000002 = .ok .hash ∧ commandAccepts .hash (machine (reordering 0)).engine.phase = false) ∧
    (decodeCommand 0x00000003 = .ok .clr ∧ commandAccepts .clr (machine ready).engine.phase = true) :=
  ⟨by decide, ⟨by decide, rfl⟩, by decide, rfl⟩

theorem test_hyp_BusErrorsChangeNothing :
    (machine quiet [.request 0x080004 0]).script = .request 0x080004 0 :: [] ∧
    (0x080004 : BitVec 22).getLsbD 19 = true ∧ (0x380008 : BitVec 22).getLsbD 19 = true := ⟨rfl, by decide, by decide⟩

theorem test_hyp_WorkReadAfterWrite :
    0x40000 ≤ (0x40003 : Addr).toNat ∧ (0x40003 : Addr).toNat < 0x40000 + Config.params.hdrBytes := by
  have := Config.params.four_le_hdrBytes
  change _ ∧ 0x40003 < _
  exact ⟨by decide, by omega⟩

theorem test_hyp_DataWritesIdempotent : ∃ t u t' u',
    exec (.wr8 0x40003 5) (machine (reordering 1)) = .next t ∧ exec (.wr8 0x40003 5) t = .next u ∧
    (0x00008 : Addr) ≠ 0x00000 ∧ exec (.wr32 0x00008 5) (machine (reordering 1)) = .next t' ∧
    exec (.wr32 0x00008 5) t' = .next u' := ⟨_, _, _, _, rfl, rfl, by decide, rfl, rfl⟩

theorem test_hyp_PrepStagesHeader : (machine ready).engine.phase = .idle ∧ (machine (reordering 0)).engine.phase ≠ .idle ∧
    3 < Config.params.hdrBytes :=
  ⟨rfl, by decide, Config.params.four_le_hdrBytes⟩

theorem test_hyp_HashStartsRun :
    ((machine ready).engine.phase = .idle ∧ Config.params.hdrBytes ≤ (machine ready).engine.hdrLen.toNat) ∧
    ((machine quiet).engine.phase = .idle ∧ (machine quiet).engine.hdrLen.toNat < Config.params.hdrBytes) ∧
    (machine { ready with phase := .done }).engine.phase ≠ .idle := by
  have := Config.params.four_le_hdrBytes
  refine ⟨⟨rfl, ready_long⟩, ⟨rfl, ?_⟩, by decide⟩
  change 0 < _
  omega

theorem test_hyp_ClrReturnsToIdle : (machine { ready with phase := .fault, err := .invalidInput }).engine.phase = .fault ∧
    (machine (reordering 545)).engine.phase = .reorder := ⟨rfl, rfl⟩

/-- Cells of the table that accept, and words and phases that do not. -/
theorem test_hyp_AcceptanceTable :
    (∀ r ∈ ([(0, .reduce), (1, .idle), (2, .idle), (3, .idle), (3, .fault)] : List (Word × Phase)),
      r.1 = 0 ∨ (r.1 = 1 ∧ r.2 = .idle) ∨ (r.1 = 2 ∧ r.2 = .idle) ∨
        (r.1 = 3 ∧ (r.2 = .idle ∨ r.2 = .done ∨ r.2 = .fault))) ∧
    (∀ r ∈ ([(1, .done), (2, .fault), (3, .reorder), (4, .idle), (0xFFFFFFFF, .done)] : List (Word × Phase)),
      ¬(r.1 = 0 ∨ (r.1 = 1 ∧ r.2 = .idle) ∨ (r.1 = 2 ∧ r.2 = .idle) ∨
        (r.1 = 3 ∧ (r.2 = .idle ∨ r.2 = .done ∨ r.2 = .fault)))) := by decide

theorem test_hyp_AcceptanceTable_leaves : ∃ t, step (machine { ready with phase := .done } [lineClr]) = .next t ∧
    (machine { ready with phase := .done } [lineClr]).engine.phase = .done ∧ t.engine.phase = .idle := ⟨_, rfl, rfl, rfl⟩

theorem test_hyp_BusyHostCannotTouchRun :
    (machine (reordering 7) [linePrep]).script = .request 0x300000 1 :: [] ∧
    (machine (reordering 7) [linePrep]).engine.phase.busy = true := ⟨rfl, rfl⟩

theorem test_hyp_ExpandFillsScratchpad : (machine { ready with phase := .expand }).engine.phase = .expand := rfl

/-- The first and the last copy. -/
theorem test_hyp_RevcopyCopiesChunk : ∀ chunk ∈ ([0, 545] : List (BitVec 10)),
    (machine (reordering chunk)).engine.phase = .reorder ∧ (machine (reordering chunk)).engine.sp1 = some zeroPad ∧
    zeroPad.length = Config.params.psz ∧ (machine (reordering chunk)).engine.chunk.toNat ≤ 545 := by
  intro chunk h
  refine ⟨rfl, rfl, List.length_replicate .., ?_⟩
  revert chunk
  decide

/-- Branch A and Branch B. -/
theorem test_hyp_ReduceStoresDigest :
    (∃ s : State, s.engine.phase = .reduce ∧ s.engine.branch = false ∧ s.engine.sp1 = some zeroPad) ∧
    (∃ s : State, s.engine.phase = .reduce ∧ s.engine.branch = true ∧ joinChunks s.engine.sp2.toList = some []) := by
  refine ⟨⟨machine { ready with phase := .reduce, sp1 := some zeroPad }, rfl, rfl, rfl⟩,
    machine { reordering 546 with phase := .reduce, sp2 := Vector.replicate 546 (some []) }, rfl, rfl, ?_⟩
  simp only [machine, Vector.toList_replicate, joinChunks_empty]

theorem test_hyp_StageStepsOnlyInTheirPhase : (machine ready).engine.phase ≠ .expand ∧
    (machine ready).engine.phase ≠ .reorder ∧ (machine (reordering 0)).engine.phase ≠ .reduce := by
  refine ⟨?_, ?_, ?_⟩ <;> decide

theorem test_hyp_ValuelessScratchpadFaults :
    ((machine { reordering 0 with sp1 := none }).engine.phase = .reorder ∧
      (machine { reordering 0 with sp1 := none }).engine.sp1 = none) ∧
    ((machine (reordering 546)).engine.sp1 ≠ none ∧ 546 ≤ (machine (reordering 546)).engine.chunk.toNat) ∧
    ((machine { ready with phase := .reduce }).engine.branch = false ∧
      (machine { ready with phase := .reduce }).engine.sp1 = none) ∧
    ((machine { reordering 546 with phase := .reduce }).engine.branch = true ∧
      (machine { reordering 546 with phase := .reduce }).engine.sp2[(545 : Fin 546)] = none) := by
  refine ⟨⟨rfl, rfl⟩, ⟨by simp [machine, reordering], by simp [machine, reordering]⟩, ⟨rfl, rfl⟩, rfl, ?_⟩
  simp [machine, reordering, ready, quiet, noChunks]

theorem test_hyp_PhaseTransitions : ∃ t, step (machine ready [lineHash]) = .next t := ⟨_, rfl⟩

theorem hash_short : step (machine { quiet with ill := true } [lineHash]) =
    .next ⟨Engine.raise .invalidInput { quiet with ill := true }, [], [.ok]⟩ := by
  have h : Engine.start Config.params { quiet with ill := true } = Engine.raise .invalidInput { quiet with ill := true } := by
    have := Config.params.four_le_hdrBytes
    rw [Engine.start, if_pos]
    change 0 < _
    omega
  rw [← h]
  rfl

theorem test_hyp_FaultEntryIsPrecise : ∃ s t : State, s.engine.Inv Config.params ∧ step s = .next t ∧
    s.engine.phase ≠ .fault ∧ t.engine.phase = .fault := by
  refine ⟨_, _, ?_, hash_short, by decide, rfl⟩
  refine ⟨⟨?_, ?_, ?_, ?_, ?_, ?_, ?_, ?_, ?_, ?_⟩, ⟨?_, ?_, ?_, ?_, ?_⟩, ?_, ?_⟩ <;>
    simp [machine, quiet, Phase.code, Phase.inRun, Err.code, powerUpHdr, noChunks, Memory.wf_nil]

theorem test_hyp_FaultEntryIsPrecise_waits : (machine { ready with phase := .fault } [.step]).engine.phase = .fault ∧
    (machine { ready with phase := .fault } [.step]).script = .step :: [] := ⟨rfl, rfl⟩

theorem test_hyp_OnlyPrepStages : ∃ t, step (machine quiet [linePrep]) = .next t ∧ t.engine.prepOk = true := ⟨_, rfl, rfl⟩

theorem test_hyp_OnlyStartWritesVersion : ∃ t, step (machine (reordering 3) [.reset]) = .next t ∧ t.engine.version = 0 :=
  ⟨_, rfl, rfl⟩

theorem test_hyp_OnlyReduceWritesDigest : ∃ t, step (machine { ready with phase := .done } [lineClr]) = .next t ∧
    t.engine.digest = zeroDigest ∧ t.engine.phase = .idle := ⟨_, rfl, rfl, rfl⟩

theorem test_hyp_IllIsSticky :
    (∃ t, step (machine quiet [lineWr32 0x00000 4]) = .next t ∧ quiet.ill = false ∧ t.engine.ill = true) ∧
    (∃ t, step (machine { quiet with ill := true } [lineClr]) = .next t ∧ t.engine.ill = false) :=
  ⟨⟨_, rfl, rfl, rfl⟩, _, rfl, rfl⟩

theorem test_hyp_ChunkCountsCopies : ∃ t, step (machine (reordering 545) [.step]) = .next t ∧ t.engine.chunk = 546 :=
  ⟨_, rfl, rfl⟩

theorem test_hyp_OnlyHostWritesWork : ∃ t, step (machine quiet [lineWr8 0x40000 5]) = .next t := ⟨_, rfl⟩

theorem test_hyp_InvariantStatesAreSafe : (machine ready [lineHash]).engine.Inv Config.params := ready_inv

theorem test_hyp_StepKeepsInvariant : ∃ t, (machine ready [lineHash]).engine.Inv Config.params ∧
    step (machine ready [lineHash]) = .next t := ⟨_, ready_inv, rfl⟩

theorem test_hyp_ReachableStatesMeetR41 : ∃ t, run 3 { State.reset with script := [linePrep, lineHash] } = .next t ∧
    t.engine.prepOk = true := by
  have h : step { State.reset with script := [linePrep, lineHash] } = .next
      ⟨{ quiet with hdr := windowBytes Config.params [], prepOk := true }, [lineHash], [.ok]⟩ := rfl
  have hs : Engine.start Config.params { quiet with hdr := windowBytes Config.params [], prepOk := true } =
      Engine.raise .invalidInput { quiet with hdr := windowBytes Config.params [], prepOk := true } := by
    have := Config.params.four_le_hdrBytes
    rw [Engine.start, if_pos]
    change 0 < _
    omega
  have h' : step ⟨{ quiet with hdr := windowBytes Config.params [], prepOk := true }, [lineHash], [.ok]⟩ = .next
      ⟨Engine.raise .invalidInput { quiet with hdr := windowBytes Config.params [], prepOk := true }, [], [.ok, .ok]⟩ := by
    rw [← hs]; rfl
  refine ⟨⟨Engine.raise .invalidInput { quiet with hdr := windowBytes Config.params [], prepOk := true }, [], [.ok, .ok]⟩,
    ?_, rfl⟩
  simp only [run, Host.Core.run, Sys2Proof.core, h, h']
  rfl

theorem test_hyp_StepKeepsRunCorrect : ∃ t, (machine ready [lineHash]).engine.Inv Config.params ∧
    (machine ready [lineHash]).engine.RunCorrect Config.params ∧ step (machine ready [lineHash]) = .next t :=
  ⟨_, ready_inv, ready_runCorrect, rfl⟩

theorem test_hyp_RunComputesKpow : (machine ready [lineHash]).engine.Inv Config.params ∧
    (machine ready [lineHash]).engine.phase = .idle ∧
    Config.params.hdrBytes ≤ (machine ready [lineHash]).engine.hdrLen.toNat ∧
    (machine ready [lineHash]).script = [lineHash] := ⟨ready_inv, rfl, ready_long, rfl⟩

theorem test_hyp_ReorderLoopReverses : (machine (reordering 0)).engine.phase = .reorder ∧
    (machine (reordering 0)).engine.chunk = 0 ∧ (machine (reordering 0)).engine.sp1 = some zeroPad ∧
    zeroPad.length = Config.params.psz ∧ (machine (reordering 0)).script = [] :=
  ⟨rfl, rfl, rfl, List.length_replicate .., rfl⟩

theorem test_hyp_RunIgnoresWorkWindow : ∃ s t u : State, s.script = u.script ∧
    u.engine = { s.engine with work := u.engine.work, workLen := u.engine.workLen } ∧ s.engine.work ≠ u.engine.work ∧
    s.engine.phase.busy = true ∧ step s = .next t :=
  ⟨machine (reordering 9) [linePrep], _, machine { reordering 9 with work := [(0x40000, 1)], workLen := 4 } [linePrep],
    rfl, rfl, by simp [machine, reordering, ready, quiet], rfl, rfl⟩

theorem test_hyp_RevReversesChunks : zeroPad.length = Config.params.psz ∧
    ∃ P : Params, P.krate = 1 ∧ (0 :: List.replicate 545 7 : List Byte).length = P.psz :=
  ⟨List.length_replicate .., { toy .rate .le with kratePred := 0 }, rfl, by
    rw [List.length_cons, List.length_replicate]; rfl⟩

theorem test_hyp_ParametersMeetConstraints : ∀ r ∈ ([(1, 546), (4, 4), (480, 262080), (480, 480)] : List (Nat × Nat)),
    1 ≤ r.1 ∧ r.1 ≤ 480 ∧ (r.2 = 546 * r.1 ∨ r.2 = r.1) ∧ 4 ≤ r.2 := by decide

theorem test_hyp_SpongeSeesOnlyItsInput : ∀ k, 8 * k < 16 → ([1, 2, 3] : List Byte)[k]? = ([1, 2, 9] : List Byte)[k]? := by
  intro k h
  have : k = 0 ∨ k = 1 := by omega
  rcases this with rfl | rfl <;> rfl

/-- The second hypothesis: exactly `ceil(in_bits / 8)` bytes, with a full and with a partial last byte. -/
theorem test_hyp_SpongeSeesOnlyItsInput_exact : ([1, 2] : List Byte).length = (16 + 7) / 8 ∧
    ([1, 2] : List Byte).length = (9 + 7) / 8 ∧ ([] : List Byte).length = (0 + 7) / 8 := by decide

theorem test_hyp_CanonicalMemoriesAreEqual : Memory.wf (toy .rate .le) [(0x40000, 0x11), (0x40003, 0x44)] = true ∧
    Memory.wf (toy .rate .le) [(0x40000, 0xAA)] = false ∧ Memory.wf (toy .rate .le) [(0x40001, 0), (0x40000, 0)] = false := by
  decide

end Sys2Proof.Tests
end

section
/-! PROOFS. The instantiations of the model are those 00_scope.md R11 admits. -/

namespace Sys2Proof

theorem Params.hdrBytes_of_scratchpad {P : Params} (hsize : P.hdrSize = .scratchpad) : P.hdrBytes = P.psz := by
  simp [Params.hdrBytes, hsize]

theorem Params.hdrBytes_of_rate {P : Params} (hsize : P.hdrSize = .rate) (hfour : 4 ≤ P.krate) :
    P.hdrBytes = P.krate :=
  if_pos ⟨hsize, hfour⟩

/-- The instantiation with a given `KRATE`, `HDR_BYTES` choice, byte order and primitive; the power-up draw, which R11 does
not speak of, is all zero. -/
def Params.ofKrate (krate : Nat) (hle : krate ≤ 480) (hpos : 1 ≤ krate) (size : HdrSize) (order : VerOrder)
    (primitive : List Byte → Nat → (outBytes : Nat) → Option (Vector Byte outBytes)) : Params where
  kratePred := ⟨krate - 1, by omega⟩
  hdrSize := size
  verOrder := order
  primitive := primitive
  workInit := fun _ => 0
  hdrInit := fun _ => 0

section OfKrate

variable {krate : Nat} {hle : krate ≤ 480} {hpos : 1 ≤ krate} {size : HdrSize} {order : VerOrder}
  {primitive : List Byte → Nat → (outBytes : Nat) → Option (Vector Byte outBytes)}

@[simp] theorem Params.krate_ofKrate : (Params.ofKrate krate hle hpos size order primitive).krate = krate :=
  Nat.sub_add_cancel hpos

@[simp] theorem Params.psz_ofKrate : (Params.ofKrate krate hle hpos size order primitive).psz = 546 * krate := by
  rw [Params.psz_eq, Params.krate_ofKrate]

theorem Params.hdrBytes_ofKrate_scratchpad :
    (Params.ofKrate krate hle hpos .scratchpad order primitive).hdrBytes = 546 * krate := by
  rw [Params.hdrBytes_of_scratchpad rfl, Params.psz_ofKrate]

theorem Params.hdrBytes_ofKrate_rate (hfour : 4 ≤ krate) :
    (Params.ofKrate krate hle hpos .rate order primitive).hdrBytes = krate := by
  rw [Params.hdrBytes_of_rate rfl (by rwa [Params.krate_ofKrate]), Params.krate_ofKrate]

end OfKrate

/-- Settles O52: the bounds are those of the type `Params`, and an admitted pair is built with the choice of `HDR_BYTES` it
names. -/
theorem parametersMeetConstraints : Obligations.ParametersMeetConstraints := by
  unfold Obligations.ParametersMeetConstraints
  constructor
  · intro P
    have hpsz := P.psz_le
    have hchoice : P.hdrBytes = 546 * P.krate ∨ P.hdrBytes = P.krate :=
      P.hdrBytes_cases.symm.imp (·.trans P.psz_eq) And.left
    have hupper : P.hdrBytes ≤ 262144 := P.hdrBytes_le.trans (by decide)
    exact ⟨⟨P.krate_pos, P.krate_le⟩, hchoice, ⟨P.four_le_hdrBytes, hupper⟩, hpsz, by omega⟩
  · intro krate hdrBytes order primitive hpos hle hchoice hfour
    rcases hchoice with rfl | rfl
    · exact ⟨.ofKrate krate hle hpos .scratchpad order primitive, Params.krate_ofKrate,
        Params.hdrBytes_ofKrate_scratchpad, rfl, rfl⟩
    · exact ⟨.ofKrate hdrBytes hle hpos .rate order primitive, Params.krate_ofKrate,
        Params.hdrBytes_ofKrate_rate hfour, rfl, rfl⟩

end Sys2Proof
end

section
/-! PROOFS. Every step keeps the invariant `Engine.Inv` (10_state.md R41). An engine meets R41 by its phase: IDLE, FAULT, or
in a run. Each named update of the engine then keeps the invariant by the case of the phase it leaves. -/

namespace Sys2Proof.Machine

variable {P : Params} {i : Instr} {e e' : Engine}

theorem Phase.code_toNat_le (p : Phase) : p.code.toNat ≤ 5 := by cases p <;> decide

theorem Phase.inRun_iff {p : Phase} : p.inRun = true ↔ p ≠ .idle ∧ p ≠ .fault := by cases p <;> decide

/-- DONE is the one phase of a run in which the engine is not busy (10_state.md R22). -/
theorem Phase.eq_done {p : Phase} (hrun : p.inRun = true) (hquiet : p.busy = false) : p = .done := by
  cases p with
  | done => rfl
  | idle | fault => cases hrun
  | expand | reorder | reduce => cases hquiet

theorem Err.code_ne_three (c : Err) : c.code ≠ 3 := by cases c <;> decide

theorem noChunks_getElem (i : Fin 546) : noChunks[i] = none := by simp [noChunks]

theorem zeroDigest_getElem (k : Fin 40) : zeroDigest[k] = 0x00 := by simp [zeroDigest]

section ByPhase

/-- R41 of an engine that waits for a run. -/
theorem Engine.MeetsR41.of_idle (hphase : e.phase = .idle) (herr : e.err = .none) (hbranch : e.branch = false)
    (hdigest : e.digest = zeroDigest) (hsp1 : e.sp1 = none) (hsp2 : e.sp2 = noChunks) : e.MeetsR41 P where
  item1 := e.phase.code_toNat_le
  item2 := ⟨by simp [hphase, herr], e.err.code_ne_three⟩
  item3 _ := hdigest
  item4 _ := hbranch
  item5 h := by simp [hphase] at h
  item6 := by simp [hphase, hbranch, Phase.inRun]
  item7 h := by simp [hphase] at h
  item8 h := by simp [hphase] at h
  item9 _ := ⟨hsp1, hsp2⟩
  item10 h := by simp [hphase, Phase.inRun] at h

/-- R41 of an engine whose run ended in a fault. -/
theorem Engine.MeetsR41.of_fault (hphase : e.phase = .fault) (herr : e.err ≠ .none)
    (hbranch : e.err = .invalidInput → e.branch = false) (hversion : e.branch = true → 1 < sint32 e.version)
    (hdigest : e.digest = zeroDigest) (hsp1 : e.sp1 = none) (hsp2 : e.sp2 = noChunks) : e.MeetsR41 P where
  item1 := e.phase.code_toNat_le
  item2 := ⟨by simp [hphase, herr], e.err.code_ne_three⟩
  item3 _ := hdigest
  item4 h := by simp [hphase] at h
  item5 _ := hbranch
  item6 := ⟨hversion, by simp [hphase, Phase.inRun]⟩
  item7 h := by simp [hphase] at h
  item8 h := by simp [hphase] at h
  item9 _ := ⟨hsp1, hsp2⟩
  item10 h := by simp [hphase, Phase.inRun] at h

/-- What a run keeps from START to DONE: no error, BRANCH as VERSION says, a header long enough and staged
(R41 items 2, 6, 10). -/
structure Engine.Running (P : Params) (e : Engine) : Prop where
  inRun : e.phase.inRun = true
  err : e.err = .none
  branch : e.branch = true ↔ 1 < sint32 e.version
  staged : P.hdrBytes ≤ e.hdrLen.toNat ∧ e.prepOk = true

theorem Engine.MeetsR41.err_eq_none (h : e.MeetsR41 P) (hphase : e.phase ≠ .fault) : e.err = .none :=
  not_not.mp (mt h.item2.1.mp hphase)

theorem Engine.MeetsR41.running (h : e.MeetsR41 P) (hrun : e.phase.inRun = true) : e.Running P where
  inRun := hrun
  err := h.err_eq_none (Phase.inRun_iff.mp hrun).2
  branch := h.item6.2 hrun
  staged := h.item10 hrun

/-- R41 of an engine in a run, by what its phase says of the scratchpads and of DIGEST. -/
theorem Engine.Running.meetsR41 (h : e.Running P)
    (hdigest : e.phase ≠ .done → e.digest = zeroDigest)
    (hreorder : e.phase = .reorder → e.branch = true ∧ e.chunk.toNat ≤ 545 ∧ e.sp1.isSome = true ∧
      ∀ i : Fin 546, i.val < e.chunk.toNat → e.sp2[i].isSome = true)
    (hreduce : e.phase = .reduce → e.sp1.isSome = true ∧
      (e.branch = true → e.chunk.toNat = 546 ∧ ∀ i : Fin 546, e.sp2[i].isSome = true))
    (hdone : e.phase = .done → e.sp1 = none ∧ e.sp2 = noChunks) : e.MeetsR41 P := by
  obtain ⟨hrun, herr, hbranch, hstaged⟩ := h
  obtain ⟨hidle, hfault⟩ := Phase.inRun_iff.mp hrun
  exact {
    item1 := e.phase.code_toNat_le
    item2 := ⟨by simp [herr, hfault], e.err.code_ne_three⟩
    item3 := hdigest
    item4 := fun hi => absurd hi hidle
    item5 := fun hf => absurd hf hfault
    item6 := ⟨hbranch.mp, fun _ => hbranch⟩
    item7 := hreorder
    item8 := hreduce
    item9 := fun hq => hdone (Phase.eq_done hrun hq)
    item10 := fun _ => hstaged }

/-- An engine that holds no scratchpad has the shape, by its other buffers. -/
theorem Engine.Shaped.of_discarded (hwork : Memory.wf P e.work = true) (hhdr : e.hdr.length = P.hdrBytes)
    (hchunk : e.chunk.toNat ≤ 546) (hsp1 : e.sp1 = none) (hsp2 : e.sp2 = noChunks) : e.Shaped P where
  work_wf := hwork
  hdr_length := hhdr
  sp1_length := by simp [hsp1]
  chunk_length i c := by rw [hsp2, noChunks_getElem]; nofun
  chunk_le := hchunk

end ByPhase

section Updates

/-- The invariant does not speak of ILL and WORK_LEN, and of WORK only its canonical form: what the host writes without a
command keeps it. -/
theorem Engine.Inv.of_hostWrite (h : e.Inv P) {work : Memory} (hwork : Memory.wf P work = true) (ill : Bool)
    (workLen : Word) : Engine.Inv P { e with ill := ill, workLen := workLen, work := work } := by
  obtain ⟨⟨h1, h2, h3, h4, h5, h6, h7, h8, h9, h10⟩, ⟨_, hhdr, hsp1, hsp2, hle⟩, hchunk, hstaged⟩ := h
  exact ⟨⟨h1, h2, h3, h4, h5, h6, h7, h8, h9, h10⟩, ⟨hwork, hhdr, hsp1, hsp2, hle⟩, hchunk, hstaged⟩

theorem Engine.Inv.reset (h : e.Inv P) : e.reset.Inv P where
  r41 := .of_idle rfl rfl rfl rfl rfl rfl
  shaped := .of_discarded h.shaped.work_wf h.shaped.hdr_length (by simp) rfl rfl
  expand_chunk := nofun
  unstaged _ := rfl

theorem Engine.Inv.clr (h : e.Inv P) (hquiet : e.phase.busy = false) : e.clr.Inv P := by
  obtain ⟨hsp1, hsp2⟩ := h.r41.item9 hquiet
  exact {
    r41 := .of_idle rfl rfl rfl rfl hsp1 hsp2
    shaped := .of_discarded h.shaped.work_wf h.shaped.hdr_length h.shaped.chunk_le hsp1 hsp2
    expand_chunk := nofun
    unstaged := h.unstaged }

theorem Engine.Inv.prep (h : e.Inv P) (hidle : e.phase = .idle) : (e.prep P).Inv P := by
  have hne : e.phase ≠ .done := by simp [hidle]
  have herr : e.err = .none := h.r41.err_eq_none (by simp [hidle])
  obtain ⟨hsp1, hsp2⟩ := h.r41.item9 (by rw [hidle]; rfl)
  exact {
    r41 := .of_idle hidle herr (h.r41.item4 hidle) (h.r41.item3 hne) hsp1 hsp2
    shaped := .of_discarded h.shaped.work_wf windowBytes_length h.shaped.chunk_le hsp1 hsp2
    expand_chunk := h.expand_chunk
    unstaged := nofun }

/-- Fault entry keeps the invariant: InvalidInput is raised with BRANCH clear, and no fault is raised in DONE (R154). -/
theorem Engine.Inv.raise (h : e.Inv P) {c : Err} (hc : c ≠ .none) (hbranch : c = .invalidInput → e.branch = false)
    (hne : e.phase ≠ .done) : (e.raise c).Inv P where
  r41 := .of_fault rfl hc hbranch h.r41.item6.1 (h.r41.item3 hne) rfl rfl
  shaped := .of_discarded h.shaped.work_wf h.shaped.hdr_length h.shaped.chunk_le rfl rfl
  expand_chunk := nofun
  unstaged := h.unstaged

/-- A header long enough for START has been staged: HDR_LEN is 0 before the first PREP (R24, R31). -/
theorem Engine.Inv.prepOk_of_long (h : e.Inv P) (hlong : P.hdrBytes ≤ e.hdrLen.toNat) : e.prepOk = true := by
  by_contra hprep
  have hzero : e.hdrLen.toNat = 0 := by rw [h.unstaged (by simpa using hprep)]; rfl
  have := P.four_le_hdrBytes
  omega

theorem Engine.Inv.beginRun (h : e.Inv P) (hidle : e.phase = .idle) (hlong : P.hdrBytes ≤ e.hdrLen.toNat) :
    (e.beginRun P).Inv P := by
  have hne : e.phase ≠ .done := by simp [hidle]
  have herr : e.err = .none := h.r41.err_eq_none (by simp [hidle])
  have hrun : (e.beginRun P).Running P := ⟨rfl, herr, by simp [branchOf], hlong, h.prepOk_of_long hlong⟩
  exact {
    r41 := hrun.meetsR41 (fun _ => h.r41.item3 hne) nofun nofun nofun
    shaped := .of_discarded h.shaped.work_wf h.shaped.hdr_length (by simp) rfl rfl
    expand_chunk := fun _ => rfl
    unstaged := h.unstaged }

/-- EXPAND leaves no chunk copied, so in REORDER nothing is asked of SP2 yet (R101, R103). -/
theorem Engine.Inv.expand (h : e.Inv P) (hphase : e.phase = .expand) (r : Vector Byte P.psz) :
    Engine.Inv P { e with sp1 := some r.toList, phase := if e.branch then .reorder else .reduce } := by
  have hne : e.phase ≠ .done := by simp [hphase]
  have hdigest := h.r41.item3 hne
  obtain ⟨_, herr, hbranch, hstaged⟩ := h.r41.running (by rw [hphase]; rfl)
  have hrun : Engine.Running P { e with sp1 := some r.toList, phase := if e.branch then .reorder else .reduce } :=
    ⟨by cases e.branch <;> rfl, herr, hbranch, hstaged⟩
  have hchunk : e.chunk = 0 := h.expand_chunk hphase
  obtain ⟨hwork, hhdr, _, hsp2, hle⟩ := h.shaped
  refine ⟨hrun.meetsR41 (fun _ => hdigest) ?_ ?_ ?_, ⟨hwork, hhdr, ?_, hsp2, hle⟩, fun _ => hchunk, h.unstaged⟩
  · cases hb : e.branch <;> simp [hchunk]
  · cases hb : e.branch <;> simp
  · cases hb : e.branch <;> simp
  · rintro pad ⟨⟩
    simp

/-- Chunk `c` of a scratchpad lies inside it (R104). -/
theorem chunkOf_length {pad : List Byte} (hpad : pad.length = P.psz) {c : Nat} (hc : c < 546) :
    (chunkOf P pad c).length = P.krate := by
  have : (c + 1) * P.krate ≤ 546 * P.krate := Nat.mul_le_mul_right _ hc
  rw [Nat.succ_mul, ← P.psz_eq] at this
  simp only [chunkOf, List.length_take, List.length_drop, hpad]
  omega

/-- REVCOPY writes the chunk at CHUNK and no other (R105). -/
theorem Engine.copyChunk_getElem (pad : List Byte) (i : Fin 546) : (e.copyChunk P pad).sp2[i] =
    if e.chunk.toNat = i.val then some (chunkOf P pad (545 - e.chunk.toNat)) else e.sp2[i] := by
  simp [KPOW_MUL, Vector.getElem_setIfInBounds]

/-- CHUNK does not wrap while it counts a copy (R23). -/
theorem Engine.copyChunk_chunk_toNat {pad : List Byte} (hlt : e.chunk.toNat < 546) :
    (e.copyChunk P pad).chunk.toNat = e.chunk.toNat + 1 := by
  simp only [Engine.copyChunk_chunk]
  bv_omega

theorem Engine.Inv.copyChunk (h : e.Inv P) (hphase : e.phase = .reorder) {pad : List Byte} (hsrc : e.sp1 = some pad)
    (hlt : e.chunk.toNat < 546) : (e.copyChunk P pad).Inv P := by
  have hne : e.phase ≠ .done := by simp [hphase]
  obtain ⟨_, herr, hversion, hstaged⟩ := h.r41.running (by rw [hphase]; rfl)
  obtain ⟨hbranch, -, hsp1, hsp2⟩ := h.r41.item7 hphase
  obtain ⟨hwork, hhdr, hpad, hlength, -⟩ := h.shaped
  have hcount := Engine.copyChunk_chunk_toNat (P := P) (pad := pad) hlt
  have hnext : (e.copyChunk P pad).phase = if e.chunk.toNat = 545 then .reduce else .reorder := by
    simp [KPOW_MUL, hphase]
  have hcopied : ∀ i : Fin 546, i.val < (e.copyChunk P pad).chunk.toNat → (e.copyChunk P pad).sp2[i].isSome = true := by
    intro i hi
    rw [Engine.copyChunk_getElem]
    split
    · rfl
    · exact hsp2 i (by omega)
  have hrun : (e.copyChunk P pad).Running P := ⟨by rw [hnext]; split <;> rfl, herr, hversion, hstaged⟩
  refine ⟨hrun.meetsR41 (fun _ => h.r41.item3 hne) (fun hp => ?_) (fun hp => ?_) (fun hp => ?_),
    ⟨hwork, hhdr, hpad, fun i c hc => ?_, ?_⟩, fun hp => ?_, h.unstaged⟩
  · have : e.chunk.toNat ≠ 545 := by rintro hl; rw [hnext, if_pos hl] at hp; cases hp
    exact ⟨hbranch, by omega, hsp1, hcopied⟩
  · have : e.chunk.toNat = 545 := by by_contra hl; rw [hnext, if_neg hl] at hp; cases hp
    exact ⟨hsp1, fun _ => ⟨by omega, fun i => hcopied i (by omega)⟩⟩
  · rw [hnext] at hp; split at hp <;> cases hp
  · rw [Engine.copyChunk_getElem] at hc
    split at hc
    · cases hc; exact chunkOf_length (hpad _ hsrc) (by omega)
    · exact hlength i c hc
  · omega
  · rw [hnext] at hp; split at hp <;> cases hp

theorem Engine.Inv.reduce (h : e.Inv P) (hphase : e.phase = .reduce) (d : Vector Byte 40) :
    Engine.Inv P { e with digest := d, phase := .done, sp1 := none, sp2 := noChunks } := by
  obtain ⟨_, herr, hbranch, hstaged⟩ := h.r41.running (by rw [hphase]; rfl)
  have hrun : Engine.Running P { e with digest := d, phase := .done, sp1 := none, sp2 := noChunks } :=
    ⟨rfl, herr, hbranch, hstaged⟩
  exact {
    r41 := hrun.meetsR41 (absurd rfl) nofun nofun fun _ => ⟨rfl, rfl⟩
    shaped := .of_discarded h.shaped.work_wf h.shaped.hdr_length h.shaped.chunk_le rfl rfl
    expand_chunk := nofun
    unstaged := h.unstaged }

end Updates

/-- Every effect of an instruction keeps the invariant. -/
theorem Effect.keeps_inv (heff : Effect P i e e') (h : e.Inv P) : e'.Inv P := by
  cases heff with
  | stay => exact h
  | writeWorkLen v => exact h.of_hostWrite h.shaped.work_wf e.ill v
  | writeWork addr d _ lo hi => exact h.of_hostWrite (Memory.wf_write h.shaped.work_wf lo hi) e.ill e.workLen
  | illegal => exact h.of_hostWrite h.shaped.work_wf true e.workLen
  | reject => exact h.of_hostWrite h.shaped.work_wf true e.workLen
  | prep _ idle => exact h.prep idle
  | shortHeader _ idle => exact h.raise nofun (fun _ => h.r41.item4 idle) (by simp [idle])
  | beginRun _ idle long => exact h.beginRun idle long
  | clr _ quiet => exact h.clr quiet
  | expandFails _ ph => exact h.raise nofun nofun (by simp [ph])
  | expand _ ph r => exact h.expand ph r
  | copyChunk _ ph pad src lt => exact h.copyChunk ph src lt
  | reduceFails _ ph => exact h.raise nofun nofun (by simp [ph])
  | reduce _ ph pad _ d => exact h.reduce ph d

/-- Settles O42: RESET, every effect of an instruction, and a step that leaves the engine alone keep the invariant. -/
theorem stepKeepsInvariant : Obligations.StepKeepsInvariant := by
  unfold Obligations.StepKeepsInvariant
  intro s t h hstep
  rcases step_effect hstep with ⟨_, hreset⟩ | ⟨i, u, _, heff⟩ | hsame
  · rw [hreset]; exact h.reset
  · exact heff.keeps_inv h
  · rwa [hsame]

end Sys2Proof.Machine
end

section
/-! PROOFS. Which step writes which field of the engine (10_state.md R23 to R35): first what host lines an instruction comes
from, then for each field the effects that change it. -/

namespace Sys2Proof

variable {header : BitVec 22} {addr : Addr} {d d' w : Word}

/-- A header with the fields `write` and `size` is the one built from them and its address (30_encoding.md R83). -/
theorem eq_requestHeader {write : BitVec 1} {size : BitVec 2} (hwrite : (header.extractLsb' 21 1).toNat = write.toNat)
    (hsize : (header.extractLsb' 19 2).toNat = size.toNat) :
    header = requestHeader write size (header.extractLsb' 0 19) :=
  BitVec.eq_of_toNat_eq (by rw [requestHeader_toNat, ← hwrite, ← hsize, ← header_toNat])

theorem decodeRequest_wr8 (h : decodeRequest header d = .ok (.wr8 addr d')) :
    header = requestHeader 1#1 0b00#2 addr ∧ d' = d := by
  obtain ⟨_, _, ⟨⟩⟩ | ⟨_, _, ⟨⟩⟩ | ⟨hwrite, hsize, ⟨⟩⟩ | ⟨_, _, ⟨⟩⟩ := decodeRequest_eq_ok.mp h
  exact ⟨eq_requestHeader hwrite hsize, rfl⟩

theorem decodeRequest_wr32 (h : decodeRequest header d = .ok (.wr32 addr d')) :
    header = requestHeader 1#1 0b10#2 addr ∧ d' = d := by
  obtain ⟨_, _, ⟨⟩⟩ | ⟨_, _, ⟨⟩⟩ | ⟨_, _, ⟨⟩⟩ | ⟨hwrite, hsize, ⟨⟩⟩ := decodeRequest_eq_ok.mp h
  exact ⟨eq_requestHeader hwrite hsize, rfl⟩

/-- The word that is a command (30_encoding.md R82). -/
def Command.word : Command → Word
  | .nop => 0x00000000
  | .prep => 0x00000001
  | .hash => 0x00000002
  | .clr => 0x00000003

theorem Command.eq_word {c : Command} (h : decodeCommand w = .ok c) : w = c.word := by
  rcases decodeCommand_cases w with ⟨hw, hd⟩ | ⟨hw, hd⟩ | ⟨hw, hd⟩ | ⟨hw, hd⟩ | ⟨_, hd⟩ <;>
    (rw [hd] at h; cases h)
  all_goals exact hw

theorem Command.word_ne_zero {c : Command} (h : c ≠ .nop) : c.word ≠ 0 := by
  cases c with
  | nop => exact absurd rfl h
  | _ => decide

end Sys2Proof

namespace Sys2Proof.Machine

variable {P : Params} {i : Instr} {c : Command} {e e' : Engine} {s u : State} {addr : Addr} {d w : Word}

section Lines

/-- An instruction no phase selects is run for a request of the host (30_encoding.md R86). -/
theorem Runs.line (h : Runs s i u) (hstage : ∀ p : Phase, decodeStage p.code ≠ .ok i) :
    ∃ header d rest, s.script = .request header d :: rest ∧ decodeRequest header d = .ok i := by
  cases h with
  | request header d rest _ line dec => exact ⟨header, d, rest, line, dec⟩
  | mark _ _ _ dec => exact absurd dec (hstage _)
  | free _ _ dec => exact absurd dec (hstage _)

theorem Runs.line_of_wr8 (h : Runs s (.wr8 addr d) u) :
    ∃ rest, s.script = .request (requestHeader 1#1 0b00#2 addr) d :: rest := by
  obtain ⟨header, d', rest, hline, hdec⟩ := h.line (by simp [decodeStage_code])
  obtain ⟨rfl, rfl⟩ := decodeRequest_wr8 hdec
  exact ⟨rest, hline⟩

theorem Runs.line_of_wr32 (h : Runs s (.wr32 addr d) u) :
    ∃ rest, s.script = .request (requestHeader 1#1 0b10#2 addr) d :: rest := by
  obtain ⟨header, d', rest, hline, hdec⟩ := h.line (by simp [decodeStage_code])
  obtain ⟨rfl, rfl⟩ := decodeRequest_wr32 hdec
  exact ⟨rest, hline⟩

theorem Runs.writesCmd (h : Runs s (.wr32 0x00000 w) u) : s.WritesCmd w := by
  obtain ⟨rest, hline⟩ := h.line_of_wr32
  exact ⟨_, rest, hline, by decide⟩

/-- A step runs no command but by a write of CMD (41_host_commands.md R120). -/
theorem Runs.ne_command (h : Runs s i u) (c : Command) : i ≠ c.instr := by
  rintro rfl
  obtain ⟨_, _, _, _, hdec⟩ := h.line (by cases c <;> simp [Command.instr, decodeStage_code])
  cases c <;> simp [Command.instr, decodeRequest_eq_ok] at hdec

theorem Runs.writesCmd_of_performs (h : Runs s i u) (hp : Performs i c) : s.WritesCmd c.word := by
  obtain hi | ⟨w, rfl, hd⟩ := hp
  · exact absurd hi (h.ne_command c)
  · exact Command.eq_word hd ▸ h.writesCmd

end Lines

section Fields

theorem Effect.staged_cases (h : Effect P i e e') :
    (e'.hdr = e.hdr ∧ e'.hdrLen = e.hdrLen ∧ e'.prepOk = e.prepOk) ∨
    (Performs i .prep ∧ e.phase = .idle ∧ e' = e.prep P) := by
  cases h with
  | prep by_ idle => exact .inr ⟨by_, idle, rfl⟩
  | _ => exact .inl ⟨rfl, rfl, rfl⟩

theorem Effect.version_cases (h : Effect P i e e') : e'.version = e.version ∨
    (e.phase = .idle ∧ P.hdrBytes ≤ e.hdrLen.toNat ∧ e' = e.beginRun P) := by
  cases h with
  | beginRun _ idle long => exact .inr ⟨idle, long, rfl⟩
  | _ => exact .inl rfl

theorem Effect.digest_cases (h : Effect P i e e') : e'.digest = e.digest ∨
    (e.phase = .reduce ∧ e'.phase = .done ∧ ∃ pad, e.source (if e.branch then .sp2 else .sp1) = some pad ∧
      spongeHash P pad (8 * P.psz) 40 = some e'.digest) ∨
    (Performs i .clr ∧ e.phase.busy = false ∧ e' = e.clr) := by
  cases h with
  | clr by_ quiet => exact .inr (.inr ⟨by_, quiet, rfl⟩)
  | reduce _ ph pad src d ans => exact .inr (.inl ⟨ph, rfl, pad, src, ans⟩)
  | _ => exact .inl rfl

theorem Effect.chunk_cases (h : Effect P i e e') : e'.chunk = e.chunk ∨
    (e.phase = .idle ∧ e' = e.beginRun P) ∨
    (e.phase = .reorder ∧ e'.chunk.toNat = e.chunk.toNat + 1) := by
  cases h with
  | beginRun _ idle => exact .inr (.inl ⟨idle, rfl⟩)
  | copyChunk _ ph pad _ lt => exact .inr (.inr ⟨ph, Engine.copyChunk_chunk_toNat lt⟩)
  | _ => exact .inl rfl

theorem Effect.work_cases (h : Effect P i e e') : e'.work = e.work ∨
    ∃ addr d, i = .wr8 addr d ∧ (workBase ≤ addr.toNat ∧ addr.toNat < workBase + P.hdrBytes) ∧
      e'.work = Memory.write P e.work addr.toNat (d.extractLsb' 0 8) := by
  cases h with
  | writeWork addr d by_ lo hi => exact .inr ⟨addr, d, by_, ⟨lo, hi⟩, rfl⟩
  | _ => exact .inl rfl

/-- ILL changes by a rejection, which changes nothing else, or by CLR (R26, R121). A rejected command is not NOP. -/
theorem Effect.ill_cases (h : Effect P i e e') : e'.ill = e.ill ∨
    (((∃ w, i = .wr32 0x00000 w ∧ 3 < w.toNat) ∨ ∃ c, c ≠ .nop ∧ Performs i c) ∧ e' = e.reject) ∨
    (Performs i .clr ∧ e.phase.busy = false ∧ e' = e.clr) := by
  cases h with
  | illegal w by_ bad => exact .inr (.inl ⟨.inl ⟨w, by_, bad⟩, rfl⟩)
  | reject c by_ out => exact .inr (.inl ⟨.inr ⟨c, (by rintro rfl; cases out), by_⟩, rfl⟩)
  | clr by_ quiet => exact .inr (.inr ⟨by_, quiet, rfl⟩)
  | _ => exact .inl rfl

end Fields

/-- The source scratchpad of REDUCE, written out (40_pipeline.md R107). -/
theorem Engine.reduce_source (e : Engine) : e.source (if e.branch then .sp2 else .sp1) =
    if e.branch = true then joinChunks e.sp2.toList else e.sp1 := by
  split <;> rfl

/-- PREP stages the window byte by byte (41_host_commands.md R123). -/
theorem windowBytes_getElem? {m : Memory} {k : Nat} (hk : k < P.hdrBytes) :
    (windowBytes P m)[k]? = some (Memory.read P m (workBase + k)) := by
  have hlt : k < (windowBytes P m).length := by rwa [windowBytes_length]
  rw [List.getElem?_eq_getElem hlt, windowBytes_getElem]

/-- Settles O34: of the effects only PREP writes the three, and its fields are those of `Engine.prep`. -/
theorem onlyPrepStages : Obligations.OnlyPrepStages := by
  unfold Obligations.OnlyPrepStages
  intro s t hstep
  rcases step_effect hstep with ⟨hline, hreset⟩ | ⟨i, u, hruns, heff⟩ | hsame
  · rw [hreset]
    exact .inr (.inr ⟨hline, rfl, rfl, rfl⟩)
  · rcases heff.staged_cases with hkept | ⟨hprep, hidle, he⟩
    · exact .inl hkept
    · rw [he]
      exact .inr (.inl ⟨hruns.writesCmd_of_performs hprep, hidle, rfl, rfl, windowBytes_length,
        fun k hk => windowBytes_getElem? hk⟩)
  · rw [hsame]
    exact .inl ⟨rfl, rfl, rfl⟩

/-- Settles O35: of the effects only the start of a run writes VERSION. -/
theorem onlyStartWritesVersion : Obligations.OnlyStartWritesVersion := by
  unfold Obligations.OnlyStartWritesVersion
  intro s t hstep
  rcases step_effect hstep with ⟨hline, hreset⟩ | ⟨i, u, _, heff⟩ | hsame
  · exact .inr (.inr ⟨by rw [hreset, Engine.reset_version], hline⟩)
  · rcases heff.version_cases with hkept | ⟨hidle, hlong, he⟩
    · exact .inl hkept
    · rw [he]
      exact .inr (.inl ⟨hidle, rfl, hlong, rfl⟩)
  · exact .inl (by rw [hsame])

/-- Settles O36: of the effects only a REDUCE that succeeds and CLR write DIGEST. -/
theorem onlyReduceWritesDigest : Obligations.OnlyReduceWritesDigest := by
  unfold Obligations.OnlyReduceWritesDigest
  intro s t hstep
  rcases step_effect hstep with ⟨hline, hreset⟩ | ⟨i, u, hruns, heff⟩ | hsame
  · rw [hreset]
    exact .inr (.inr ⟨zeroDigest_getElem, rfl, .inr hline⟩)
  · rcases heff.digest_cases with hkept | ⟨hphase, hdone, hanswer⟩ | ⟨hclr, hquiet, he⟩
    · exact .inl hkept
    · rw [Engine.reduce_source] at hanswer
      exact .inr (.inl ⟨hphase, hdone, hanswer⟩)
    · rw [he]
      exact .inr (.inr ⟨zeroDigest_getElem, rfl, .inl ⟨hquiet, hruns.writesCmd_of_performs hclr⟩⟩)
  · exact .inl (by rw [hsame])

/-- Settles O37: of the effects only a rejection sets ILL, of a word that is not NOP's, and only CLR clears it. -/
theorem illIsSticky : Obligations.IllIsSticky := by
  unfold Obligations.IllIsSticky
  intro s t hstep
  rcases step_effect hstep with ⟨hline, hreset⟩ | ⟨i, u, hruns, heff⟩ | hsame
  · rw [hreset]
    exact ⟨nofun, fun _ _ => ⟨rfl, .inl hline⟩⟩
  · rcases heff.ill_cases with hkept | ⟨hword, he⟩ | ⟨hclr, hquiet, he⟩
    · exact ⟨fun h0 h1 => by simp [hkept, h0] at h1, fun h1 h0 => by simp [hkept, h1] at h0⟩
    · refine ⟨fun _ _ => ?_, fun _ hclear => by simp [he] at hclear⟩
      obtain ⟨w, rfl, hbad⟩ | ⟨c, hc, hperforms⟩ := hword
      · exact ⟨w, hruns.writesCmd, (by rintro rfl; simp at hbad), he⟩
      · exact ⟨c.word, hruns.writesCmd_of_performs hperforms, Command.word_ne_zero hc, he⟩
    · rw [he]
      exact ⟨nofun, fun _ _ => ⟨rfl, .inr ⟨hruns.writesCmd_of_performs hclr, hquiet⟩⟩⟩
  · rw [hsame]
    exact ⟨fun h0 h1 => by simp [h0] at h1, fun h1 h0 => by simp [h1] at h0⟩

/-- Settles O38: of the effects only the start of a run and REVCOPY write CHUNK. -/
theorem chunkCountsCopies : Obligations.ChunkCountsCopies := by
  unfold Obligations.ChunkCountsCopies
  intro s t hstep
  rcases step_effect hstep with ⟨hline, hreset⟩ | ⟨i, u, _, heff⟩ | hsame
  · exact .inr (.inl ⟨by rw [hreset, Engine.reset_chunk], .inr hline⟩)
  · rcases heff.chunk_cases with hkept | ⟨hidle, he⟩ | hcount
    · exact .inl hkept
    · rw [he]
      exact .inr (.inl ⟨rfl, .inl ⟨hidle, rfl⟩⟩)
    · exact .inr (.inr hcount)
  · exact .inl (by rw [hsame])

/-- Settles O39: of the effects only a byte write in the window writes WORK, and a step runs one for a WR8 line only. -/
theorem onlyHostWritesWork : Obligations.OnlyHostWritesWork := by
  unfold Obligations.OnlyHostWritesWork
  intro s t hstep
  rcases step_effect hstep with ⟨_, hreset⟩ | ⟨i, u, hruns, heff⟩ | hsame
  · exact .inl (by rw [hreset, Engine.reset_work])
  · rcases heff.work_cases with hkept | ⟨addr, d, rfl, hwindow, hwork⟩
    · exact .inl hkept
    · obtain ⟨rest, hline⟩ := hruns.line_of_wr8
      have hmask : requestHeader 1#1 0b00#2 addr &&& 0x380000 = 0x200000 :=
        BitVec.eq_of_toNat_eq requestHeader_and_mask
      refine .inr ⟨_, d, rest, hline, hmask, ?_⟩
      rw [requestHeader_addr, hwork]
      exact ⟨hwindow, by rw [Memory.read_write, if_pos rfl], fun a' ha => by rw [Memory.read_write, if_neg ha.symm]⟩
  · exact .inl (by rw [hsame])

end Sys2Proof.Machine
end

section
/-! PROOFS. The canonical form of WORK names each memory once (the model's form, log 5; 10_state.md R34). -/

namespace Sys2Proof.Machine

variable {P : Params} {m m' : Memory} {a lo : Nat}

theorem Memory.le_of_rising (h : Memory.rising lo m = true) : ∀ c ∈ m, lo ≤ c.1 := by
  induction m generalizing lo with
  | nil => nofun
  | cons d m ih =>
    obtain ⟨x, v⟩ := d
    simp only [Memory.rising, Bool.and_eq_true, decide_eq_true_eq] at h
    rw [List.forall_mem_cons]
    exact ⟨h.1, fun c hc => Nat.le_of_succ_le (h.1.trans_lt (ih h.2 c hc))⟩

theorem Memory.read_of_not_listed (h : ∀ c ∈ m, c.1 ≠ a) : Memory.read P m a = Memory.unlisted P a := by
  induction m with
  | nil => rfl
  | cons c m ih =>
    rw [List.forall_mem_cons] at h
    rw [Memory.read_cons, if_neg h.1, ih h.2]

theorem Memory.read_below (h : Memory.rising lo m = true) (ha : a < lo) :
    Memory.read P m a = Memory.unlisted P a :=
  Memory.read_of_not_listed fun c hc => (ha.trans_le (Memory.le_of_rising h c hc)).ne'

/-- Where a memory reads as its first cell does, no memory that starts above that cell reads the same: the cell differs from
what an unlisted address reads as. -/
theorem Memory.head_not_below {c : Host.Cell} (hc : c.2 ≠ Memory.unlisted P c.1) (hm' : Memory.rising lo m' = true)
    (hread : Memory.read P (c :: m) c.1 = Memory.read P m' c.1) : lo ≤ c.1 := by
  by_contra hlt
  rw [Memory.read_cons, if_pos rfl, Memory.read_below hm' (by omega)] at hread
  exact hc hread

theorem Memory.eq_nil (hne : ∀ c ∈ m, c.2 ≠ Memory.unlisted P c.1)
    (hread : ∀ a, Memory.read P m a = Memory.unlisted P a) : m = [] := by
  cases m with
  | nil => rfl
  | cons c m =>
    have hc := hread c.1
    rw [Memory.read_cons, if_pos rfl] at hc
    exact absurd hc (hne c List.mem_cons_self)

/-- Two rising lists of cells that differ from the unlisted bytes are equal when they read the same everywhere. -/
theorem Memory.eq_of_read_eq (hm : Memory.rising lo m = true) (hm' : Memory.rising lo m' = true)
    (hne : ∀ c ∈ m, c.2 ≠ Memory.unlisted P c.1) (hne' : ∀ c ∈ m', c.2 ≠ Memory.unlisted P c.1)
    (hread : ∀ a, Memory.read P m a = Memory.read P m' a) : m = m' := by
  induction m generalizing lo m' with
  | nil => exact (Memory.eq_nil hne' fun a => (hread a).symm).symm
  | cons c m ih =>
    cases m' with
    | nil => exact Memory.eq_nil hne hread
    | cons c' m' =>
      rw [List.forall_mem_cons] at hne hne'
      obtain ⟨x, v⟩ := c
      obtain ⟨x', v'⟩ := c'
      simp only [Memory.rising, Bool.and_eq_true, decide_eq_true_eq] at hm hm'
      have hle : x' ≤ x := Memory.head_not_below (m' := (x', v') :: m') hne.1 (by simp [Memory.rising, hm'.2]) (hread x)
      have hge : x ≤ x' :=
        Memory.head_not_below (m' := (x, v) :: m) hne'.1 (by simp [Memory.rising, hm.2]) (hread x').symm
      obtain rfl : x = x' := Nat.le_antisymm hge hle
      have hv : v = v' := by simpa [Memory.read_cons] using hread x
      have htail : m = m' := by
        refine ih hm.2 hm'.2 hne.2 hne'.2 fun a => ?_
        by_cases ha : x = a
        · rw [Memory.read_below hm.2 (by omega), Memory.read_below hm'.2 (by omega)]
        · simpa [Memory.read_cons, ha] using hread a
      rw [hv, htail]

/-- Outside the window a memory in canonical form lists no cell. -/
theorem Memory.read_outside (h : Memory.wf P m = true) (ha : ¬(workBase ≤ a ∧ a < workBase + P.hdrBytes)) :
    Memory.read P m a = Memory.unlisted P a := by
  obtain ⟨hrising, hcells⟩ := Memory.wf_iff.mp h
  refine Memory.read_of_not_listed fun c hc hca => ha ?_
  subst hca
  exact ⟨Memory.le_of_rising hrising c hc, (hcells c hc).1⟩

/-- Settles O54: outside the window both memories read as unlisted, so they read the same everywhere. -/
theorem canonicalMemoriesAreEqual : Obligations.CanonicalMemoriesAreEqual := by
  unfold Obligations.CanonicalMemoriesAreEqual
  intro P m m' hwf hwf' hwindow
  have hread : ∀ a, Memory.read P m a = Memory.read P m' a := by
    intro a
    by_cases ha : workBase ≤ a ∧ a < workBase + P.hdrBytes
    · exact hwindow a ha.1 ha.2
    · rw [Memory.read_outside hwf ha, Memory.read_outside hwf' ha]
  obtain ⟨hrising, hcells⟩ := Memory.wf_iff.mp hwf
  obtain ⟨hrising', hcells'⟩ := Memory.wf_iff.mp hwf'
  exact Memory.eq_of_read_eq hrising hrising' (fun c hc => (hcells c hc).2) (fun c hc => (hcells' c hc).2) hread

end Sys2Proof.Machine
end

section
/-! PROOFS. STATUS and its fields (10_state.md R29). -/

namespace Sys2Proof.Machine

variable (e : Engine)

theorem Err.code_toNat_le (c : Err) : c.code.toNat ≤ 2 := by cases c <;> decide

/-- The sum of the fields fits the word. -/
theorem Engine.status_toNat : e.status.toNat = e.phase.code.toNat + 8 * e.prepOk.toNat + 16 * e.branch.toNat
    + 32 * e.ill.toNat + 256 * e.err.code.toNat := by
  have := e.phase.code_toNat_le
  have := e.err.code_toNat_le
  have := e.prepOk.toNat_le
  have := e.branch.toNat_le
  have := e.ill.toNat_le
  rw [Engine.status, BitVec.toNat_ofNat]
  omega

/-- A bit of a word whose quotient has that parity. -/
theorem getLsbD_eq_of_toNat {n k : Nat} {v : BitVec n} {b : Bool} (h : v.toNat / 2 ^ k % 2 = b.toNat) :
    v.getLsbD k = b := by
  rw [BitVec.getLsbD, Nat.testBit_eq_decide_div_mod_eq, h]
  cases b <;> rfl

/-- A field of a word whose quotient has that remainder. -/
theorem extractLsb'_eq_of_toNat {n lo len : Nat} {v : BitVec n} {f : BitVec len}
    (h : v.toNat / 2 ^ lo % 2 ^ len = f.toNat) : v.extractLsb' lo len = f :=
  BitVec.eq_of_toNat_eq (by rw [extractLsb'_toNat_div, h])

theorem extractLsb'_eq_zero_of_toNat {n lo len : Nat} {v : BitVec n} (h : v.toNat / 2 ^ lo % 2 ^ len = 0) :
    v.extractLsb' lo len = 0 :=
  extractLsb'_eq_of_toNat (h.trans BitVec.toNat_zero.symm)

/-- Settles O49: each field is a quotient and remainder of the sum, and the access at 0x00004 only answers. -/
theorem statusLayout : Obligations.StatusLayout := by
  unfold Obligations.StatusLayout
  refine ⟨fun e => ?_, fun s d => ⟨rfl, rfl⟩⟩
  have hsum := e.status_toNat
  have hphase := e.phase.code_toNat_le
  have herr := e.err.code_toNat_le
  have hprep := e.prepOk.toNat_le
  have hbranch := e.branch.toNat_le
  have hill := e.ill.toNat_le
  refine ⟨extractLsb'_eq_of_toNat ?_, getLsbD_eq_of_toNat ?_, getLsbD_eq_of_toNat ?_, getLsbD_eq_of_toNat ?_,
    extractLsb'_eq_zero_of_toNat ?_, extractLsb'_eq_of_toNat ?_, extractLsb'_eq_zero_of_toNat ?_, hsum, hphase, herr⟩
  all_goals
    rw [hsum]
    omega

end Sys2Proof.Machine
end

section
/-! PROOFS. RESET, the reset state, and the states reached from it (10_state.md R40, R41). -/

namespace Sys2Proof.Machine

variable {P : Params} {s t : State} {k : Nat}

theorem step_of_reset {rest : List ScriptLine} (h : s.script = .reset :: rest) :
    step s = .next ((s.setScript rest).setEngine s.engine.reset) := by
  simp [step, fetch, h]

theorem Engine.reset_status (e : Engine) : e.reset.status = 0x00000000 := rfl

/-- Settles O10: the RESET event leaves the engine `Engine.reset`, field by field. -/
theorem resetEvent : Obligations.ResetEvent := by
  unfold Obligations.ResetEvent
  intro s rest h
  exact ⟨_, step_of_reset h, rfl, rfl, rfl, rfl, rfl, rfl, rfl, rfl, rfl, rfl, rfl, zeroDigest_getElem, rfl, rfl, rfl,
    noChunks_getElem, s.engine.reset_status⟩

/-- Before any write WORK byte `k` reads as its power-up draw (70_reset_and_hazards.md R181). -/
theorem Memory.read_nil_workBase (k : Nat) : Memory.read P [] (workBase + k) = P.workInit k := by
  simp [Memory.unlisted]

theorem powerUpHdr_getElem? (hk : k < P.hdrBytes) : (powerUpHdr P)[k]? = some (P.hdrInit k) := by
  simp [powerUpHdr, hk]

/-- Settles O11: the fields of `Engine.afterReset`, and the power-up draw behind WORK and HDR. -/
theorem resetState : Obligations.ResetState := by
  unfold Obligations.ResetState
  exact ⟨rfl, rfl, rfl, rfl, rfl, rfl, rfl, rfl, rfl, zeroDigest_getElem, rfl, noChunks_getElem, rfl,
    fun k hk => ⟨Memory.read_nil_workBase k, powerUpHdr_getElem? hk⟩, rfl, rfl⟩

theorem Engine.afterReset_inv (P : Params) : (Engine.afterReset P).Inv P where
  r41 := .of_idle rfl rfl rfl rfl rfl rfl
  shaped := .of_discarded Memory.wf_nil (by simp [powerUpHdr]) (by simp) rfl rfl
  expand_chunk := nofun
  unstaged _ := rfl

/-- No run has begun, so nothing is asked of it. -/
theorem Engine.RunCorrect.of_idle {e : Engine} (hidle : e.phase = .idle) : e.RunCorrect P where
  version h := by simp [hidle, Phase.inRun] at h
  sp1 h := by simp [hidle] at h
  sp2 _ _ h := by simp [hidle] at h
  done h := by simp [hidle] at h
  failed h := by simp [hidle] at h

/-- Settles O43: the engine after reset is an idle engine that holds nothing. -/
theorem invariantAtReset : Obligations.InvariantAtReset := by
  unfold Obligations.InvariantAtReset
  exact ⟨Engine.afterReset_inv _, .of_idle rfl⟩

theorem run_succ_eq_next : run (k + 1) s = .next t ↔ ∃ u, step s = .next u ∧ run k u = .next t := by
  cases h : step s <;> simp [run, Host.Core.run, core, h]

/-- What every step keeps, every run keeps. -/
theorem run_keeps {p : State → Prop} (hstep : ∀ s t, p s → step s = .next t → p t) (hs : p s)
    (hrun : run k s = .next t) : p t := by
  induction k generalizing s with
  | zero => cases hrun; exact hs
  | succ k ih =>
    obtain ⟨u, hu, hrest⟩ := run_succ_eq_next.mp hrun
    exact ih (hstep s u hs hu) hrest

/-- Settles O44: the invariant of O42 holds at reset, whatever the script, and every step keeps it. -/
theorem reachableStatesMeetR41 : Obligations.ReachableStatesMeetR41 := by
  unfold Obligations.ReachableStatesMeetR41
  intro script k t hrun
  have hreset : Engine.Inv Config.params { State.reset with script := script }.engine := Engine.afterReset_inv _
  exact (run_keeps (p := fun s => s.engine.Inv Config.params) stepKeepsInvariant hreset hrun).r41

end Sys2Proof.Machine
end

section
/-! PROOFS. What a step runs (20_memory.md R63, 30_encoding.md R84, R86): the instruction of the script's next line, or of
PHASE. -/

namespace Sys2Proof.Machine

variable {s u : State} {i : Instr} {header : BitVec 22} {d : Word} {rest : List ScriptLine}

theorem Runs.step (h : Runs s i u) : step s = exec i u := by
  cases h with
  | request header d rest _ line dec => simp [Machine.step, fetch, line, requestTurn, dec]
  | mark rest _ line dec => simp [Machine.step, fetch, line, sequencerTurn, dec]
  | free _ line dec => simp [Machine.step, fetch, line, sequencerTurn, dec]

/-- A request that decodes to nothing is answered `buserr` (30_encoding.md R84). -/
theorem step_of_undecoded {r : DecodeError} (line : s.script = .request header d :: rest)
    (dec : decodeRequest header d = .error r) : step s = .next ((s.setScript rest).respond .buserr) := by
  simp [Machine.step, fetch, line, requestTurn, dec]

/-- Settles O7: each of the three is a way `Runs` has for a step to run an instruction. -/
theorem stepRunsDecodedInstruction : Obligations.StepRunsDecodedInstruction := by
  unfold Obligations.StepRunsDecodedInstruction
  intro s i
  exact ⟨fun header d rest line dec => (Runs.request header d rest i line dec).step,
    fun rest line dec => (Runs.mark rest i line dec).step,
    fun line dec => (Runs.free i line dec).step⟩

end Sys2Proof.Machine
end

section
/-! PROOFS. Accesses of the host space (20_memory.md R55 to R58): which are bus errors, what a read finds after a write, and
that a data write repeated changes nothing more. -/

namespace Sys2Proof.Machine

variable {P : Params} {e : Engine} {s t : State} {i : Instr} {addr : Addr} {m : Memory} {a : Nat} {b : Byte}

/-- All a byte read can answer (R55). -/
theorem memRead8_cases :
    ((0x40 ≤ addr.toNat ∧ addr.toNat ≤ 0x67) ∧ ∃ k : Fin 40, memRead8 P e addr = .ok8 e.digest[k]) ∨
    ((workBase ≤ addr.toNat ∧ addr.toNat < workBase + P.hdrBytes) ∧
      memRead8 P e addr = .ok8 (Memory.read P e.work addr.toNat)) ∨
    (((addr.toNat < 0x40 ∨ 0x67 < addr.toNat) ∧ ¬(workBase ≤ addr.toNat ∧ addr.toNat < workBase + P.hdrBytes)) ∧
      memRead8 P e addr = .buserr) := by
  unfold memRead8
  cases hk : digestIndex addr with
  | some k =>
    rw [digestIndex_eq_some] at hk
    exact .inl ⟨by omega, k, rfl⟩
  | none =>
    rw [digestIndex_eq_none] at hk
    by_cases hw : inWorkWindow P addr = true
    · exact .inr (.inl ⟨inWorkWindow_iff.mp hw, by simp [hw]⟩)
    · exact .inr (.inr ⟨⟨hk, fun hc => hw (inWorkWindow_iff.mpr hc)⟩, by simp [hw]⟩)

/-- The DIGEST and the WORK window share no address (R51). -/
theorem digestIndex_of_work (h : workBase ≤ addr.toNat) : digestIndex addr = none :=
  digestIndex_eq_none.mpr (.inr (lt_of_lt_of_le (by decide) h))

theorem memRead8_work (hwork : inWorkWindow P addr = true) :
    memRead8 P e addr = .ok8 (Memory.read P e.work addr.toNat) := by
  simp [memRead8, digestIndex_of_work (inWorkWindow_iff.mp hwork).1, hwork]

theorem memWrite8_work (hwork : inWorkWindow P addr = true) : memWrite8 P addr b s =
    (s.setEngine { s.engine with work := Memory.write P s.engine.work addr.toNat b }).respond .ok := by
  simp [memWrite8, digestIndex_of_work (inWorkWindow_iff.mp hwork).1, hwork]

/-- Settles O19: both accesses reach the memory, and a read of it after a write at its address finds the byte written. -/
theorem workReadAfterWrite : Obligations.WorkReadAfterWrite := by
  unfold Obligations.WorkReadAfterWrite
  intro addr wdata s hwindow
  have hwork : inWorkWindow Config.params addr = true := inWorkWindow_iff.mpr hwindow
  refine ⟨_, exec_wr8 s addr wdata, ?_⟩
  rw [exec_rd8, memRead8_work hwork, memWrite8_work hwork, State.respond_engine, State.setEngine_engine,
    Memory.read_write, if_pos rfl]
  rfl

section BusErrors

/-- The machine answers `i`, with `buserr` exactly where `refused` holds, and then leaves the engine and the script as they
are (R57). -/
def Answers (i : Instr) (s : State) (refused : Prop) : Prop :=
  ∃ t r, exec i s = .next t ∧ t.responses = r :: s.responses ∧ (r = .buserr ↔ refused) ∧
    (refused → t.engine = s.engine ∧ t.script = s.script)

variable {refused : Prop} {r : Response}

theorem Answers.of_served (h : exec i s = .next t) (hr : t.responses = r :: s.responses) (hne : r ≠ .buserr)
    (hserved : ¬refused) : Answers i s refused :=
  ⟨t, r, h, hr, iff_of_false hne hserved, fun hrefused => absurd hrefused hserved⟩

theorem Answers.of_refused (h : exec i s = .next (s.respond .buserr)) (hrefused : refused) : Answers i s refused :=
  ⟨_, .buserr, h, rfl, iff_of_true rfl hrefused, fun _ => ⟨rfl, rfl⟩⟩

theorem registerAt_eq_none_iff_not_mem :
    registerAt addr = none ↔ addr ∉ ([0x00000, 0x00004, 0x00008, 0x0000C, 0x00010] : List Addr) := by
  simp [registerAt_eq_none, ← BitVec.toNat_inj]

theorem State.commandWord_responses (w : Word) (s : State) :
    (s.commandWord P w).responses = .ok :: s.responses := by
  rcases State.commandWord_cases (P := P) (w := w) (s := s) with ⟨c, _, h⟩ | ⟨_, h⟩ <;> rw [h] <;> rfl

theorem rd32_answers (addr : Addr) (s : State) : Answers (.rd32 addr) s (registerAt addr = none) := by
  have hexec := exec_rd32 s addr
  unfold memRead32 at hexec
  cases hr : registerAt addr with
  | some reg =>
    rw [hr] at hexec
    exact .of_served hexec rfl nofun nofun
  | none =>
    rw [hr] at hexec
    exact .of_refused hexec rfl

theorem wr32_answers (addr : Addr) (d : Word) (s : State) : Answers (.wr32 addr d) s (registerAt addr = none) := by
  have hexec := exec_wr32 s addr d
  rw [registerAt_eq_none]
  rcases memWrite32_cases (P := Config.params) (addr := addr) (v := d) (s := s) with
    ⟨ha, h⟩ | ⟨ha, h⟩ | ⟨ha, h⟩ | ⟨ha, h⟩ <;> rw [h] at hexec
  · exact .of_served hexec (State.commandWord_responses d s) nofun (by omega)
  · exact .of_served hexec rfl nofun (by omega)
  · exact .of_served hexec rfl nofun (by omega)
  · exact .of_refused hexec ha

/-- The two windows a byte access reaches (R51). -/
def InWindows (P : Params) (addr : Addr) : Prop :=
  (0x00040 ≤ addr.toNat ∧ addr.toNat ≤ 0x00067) ∨ (workBase ≤ addr.toNat ∧ addr.toNat < workBase + P.hdrBytes)

theorem not_inWindows_iff : ¬InWindows P addr ↔
    (addr.toNat < 0x40 ∨ 0x67 < addr.toNat) ∧ ¬(workBase ≤ addr.toNat ∧ addr.toNat < workBase + P.hdrBytes) := by
  unfold InWindows
  omega

theorem rd8_answers (addr : Addr) (s : State) : Answers (.rd8 addr) s (¬InWindows Config.params addr) := by
  have hexec := exec_rd8 s addr
  rcases memRead8_cases (P := Config.params) (e := s.engine) (addr := addr) with ⟨hd, k, h⟩ | ⟨hw, h⟩ | ⟨hn, h⟩ <;>
    rw [h] at hexec
  · exact .of_served hexec rfl nofun (not_not_intro (.inl hd))
  · exact .of_served hexec rfl nofun (not_not_intro (.inr hw))
  · exact .of_refused hexec (not_inWindows_iff.mpr hn)

theorem wr8_answers (addr : Addr) (d : Word) (s : State) :
    Answers (.wr8 addr d) s (¬InWindows Config.params addr) := by
  have hexec := exec_wr8 s addr d
  rcases memWrite8_cases (P := Config.params) (addr := addr) (b := d.extractLsb' 0 8) (s := s) with
    ⟨hd, h⟩ | ⟨hw, h⟩ | ⟨hn, h⟩ <;> rw [h] at hexec
  · exact .of_served hexec rfl nofun (not_not_intro (.inl hd))
  · exact .of_served hexec rfl nofun (not_not_intro (.inr hw))
  · exact .of_refused hexec (not_inWindows_iff.mpr hn)

/-- A header with a reserved size code, bit 19 set, decodes to nothing (30_encoding.md R84, R88). -/
theorem decodeRequest_reserved {header : BitVec 22} (d : Word) (h : header.getLsbD 19 = true) :
    ∃ r, decodeRequest header d = .error r := by
  cases hdec : decodeRequest header d with
  | error r => exact ⟨r, rfl⟩
  | ok i =>
    have hsize : (header.extractLsb' 19 2).toNat = 0 ∨ (header.extractLsb' 19 2).toNat = 2 := by
      obtain ⟨_, hz, _⟩ | ⟨_, hz, _⟩ | ⟨_, hz, _⟩ | ⟨_, hz, _⟩ := decodeRequest_eq_ok.mp hdec
      all_goals simp [hz]
    have hwf := Laws.TableRow.header_wellFormed d hsize
    exact absurd h (by simpa [Encoded.wellFormed] using hwf)

/-- Settles O18: each access is answered by the cases of its operation, and a reserved size decodes to nothing. -/
theorem busErrorsChangeNothing : Obligations.BusErrorsChangeNothing := by
  unfold Obligations.BusErrorsChangeNothing
  refine ⟨fun addr d s => ?_, fun s header d rest line hbit => ?_⟩
  · rw [← registerAt_eq_none_iff_not_mem]
    exact ⟨rd32_answers addr s, wr32_answers addr d s, rd8_answers addr s, wr8_answers addr d s⟩
  · obtain ⟨r, hdec⟩ := decodeRequest_reserved d hbit
    exact step_of_undecoded line hdec

end BusErrors

section Idempotent

theorem Memory.insert_insert : Memory.insert a b (Memory.insert a b m) = Memory.insert a b m := by
  induction m with
  | nil => simp [Memory.insert]
  | cons c m ih =>
    obtain ⟨x, v⟩ := c
    rcases lt_trichotomy a x with h | rfl | h
    · simp [Memory.insert, h]
    · simp [Memory.insert]
    · simp [Memory.insert, h.not_gt, h.ne', ih]

theorem Memory.erase_erase : Memory.erase a (Memory.erase a m) = Memory.erase a m := by
  simp [Memory.erase, List.filter_filter]

theorem Memory.write_write : Memory.write P (Memory.write P m a b) a b = Memory.write P m a b := by
  unfold Memory.write
  split
  · exact Memory.erase_erase
  · exact Memory.insert_insert

/-- What a byte write does to the engine (R56). -/
theorem memWrite8_engine (v : Byte) (s : State) : (memWrite8 P addr v s).engine =
    if inWorkWindow P addr then { s.engine with work := Memory.write P s.engine.work addr.toNat v } else s.engine := by
  by_cases hwork : inWorkWindow P addr = true
  · rw [memWrite8_work hwork, if_pos hwork]; rfl
  · rw [if_neg hwork]
    unfold memWrite8
    split
    · rfl
    · rw [if_neg hwork]; rfl

/-- What a 32-bit write that performs no command does to the engine (R56). -/
theorem memWrite32_engine (hcmd : addr ≠ 0x00000) (v : Word) (s : State) : (memWrite32 P addr v s).engine =
    if addr.toNat = 8 then { s.engine with workLen := v } else s.engine := by
  rcases memWrite32_cases (P := P) (addr := addr) (v := v) (s := s) with
    ⟨ha, h⟩ | ⟨ha, h⟩ | ⟨ha, h⟩ | ⟨ha, h⟩ <;> rw [h]
  · exact absurd (BitVec.eq_of_toNat_eq ha) hcmd
  · rw [if_pos ha]; rfl
  · rw [if_neg (by omega)]; rfl
  · rw [if_neg ha.2.2.1]; rfl

/-- Settles O20: the second write stores the byte or the length that already stands there. -/
theorem dataWritesIdempotent : Obligations.DataWritesIdempotent := by
  unfold Obligations.DataWritesIdempotent
  intro addr d s t u
  refine ⟨fun h₁ h₂ => ?_, fun hcmd h₁ h₂ => ?_⟩
  · rw [exec_wr8] at h₁ h₂
    cases h₁
    cases h₂
    simp only [memWrite8_engine]
    split
    · rw [Memory.write_write]
    · rfl
  · rw [exec_wr32] at h₁ h₂
    cases h₁
    cases h₂
    simp only [memWrite32_engine hcmd]
    split <;> rfl

end Idempotent

end Sys2Proof.Machine
end

section
/-! PROOFS. A run does not see WORK and WORK_LEN (20_memory.md R64 (c), 40_pipeline.md R110). To differ only in the two is an
equivalence of machines. Reads and data writes stay in a machine's class; RESET, a command and a stage step of a busy engine
do the same to every machine of it. -/

namespace Sys2Proof.Machine

variable {P : Params} {e e' : Engine} {s s' t u v : State} {i : Instr} {c : Command} {addr : Addr} {m : Memory}
  {n : Word}

/-- The engine with other contents of WORK and WORK_LEN. -/
def Engine.setInput (m : Memory) (n : Word) (e : Engine) : Engine := { e with work := m, workLen := n }

/-- Two machines that differ only in WORK, WORK_LEN and what their hosts were answered. -/
def Alike (s u : State) : Prop := s.script = u.script ∧ u.engine = s.engine.setInput u.engine.work u.engine.workLen

section Equivalence

theorem Alike.of_setInput (hscript : s.script = u.script) (hengine : u.engine = s.engine.setInput m n) : Alike s u :=
  ⟨hscript, by rw [hengine]; rfl⟩

theorem Alike.symm (h : Alike s u) : Alike u s :=
  .of_setInput h.1.symm (m := s.engine.work) (n := s.engine.workLen) (by rw [h.2]; rfl)

theorem Alike.trans (h : Alike s u) (h' : Alike u v) : Alike s v := by
  refine .of_setInput (h.1.trans h'.1) (m := v.engine.work) (n := v.engine.workLen) ?_
  calc v.engine = u.engine.setInput v.engine.work v.engine.workLen := h'.2
    _ = (s.engine.setInput u.engine.work u.engine.workLen).setInput v.engine.work v.engine.workLen :=
      congrArg (Engine.setInput _ _) h.2
    _ = s.engine.setInput v.engine.work v.engine.workLen := rfl

/-- Machines stay alike under operations that lead each to one alike. -/
theorem Alike.congr (h : Alike s u) (hs : Alike s t) (hu : Alike u v) : Alike t v := hs.symm.trans (h.trans hu)

theorem Alike.phase (h : Alike s u) : u.engine.phase = s.engine.phase := by rw [h.2]; rfl

theorem Alike.setScript (h : Alike s u) (lines : List ScriptLine) : Alike (s.setScript lines) (u.setScript lines) :=
  ⟨rfl, h.2⟩

end Equivalence

section DataAccesses

theorem respond_alike (s : State) (r : Response) : Alike s (s.respond r) := ⟨rfl, rfl⟩

theorem memWrite8_alike (addr : Addr) (b : Byte) (s : State) : Alike s (memWrite8 P addr b s) := by
  rcases memWrite8_cases (P := P) (addr := addr) (b := b) (s := s) with ⟨_, h⟩ | ⟨_, h⟩ | ⟨_, h⟩ <;> rw [h]
  · exact respond_alike s .ok
  · exact ⟨rfl, rfl⟩
  · exact respond_alike s .buserr

/-- A 32-bit write that performs no command. -/
theorem memWrite32_alike (hcmd : addr ≠ 0x00000) (d : Word) (s : State) : Alike s (memWrite32 P addr d s) := by
  rcases memWrite32_cases (P := P) (addr := addr) (v := d) (s := s) with ⟨ha, h⟩ | ⟨_, h⟩ | ⟨_, h⟩ | ⟨_, h⟩ <;> rw [h]
  · exact absurd (BitVec.eq_of_toNat_eq ha) hcmd
  · exact ⟨rfl, rfl⟩
  · exact respond_alike s .ok
  · exact respond_alike s .buserr

end DataAccesses

section EngineUpdates

theorem Alike.setEngine {f : Engine → Engine} (h : Alike s u)
    (hf : ∀ m n, f (s.engine.setInput m n) = (f s.engine).setInput m n) :
    Alike (s.setEngine (f s.engine)) (u.setEngine (f u.engine)) :=
  .of_setInput h.1 ((congrArg f h.2).trans (hf _ _))

/-- RESET zeroes WORK_LEN in both and leaves WORK as it is (70_reset_and_hazards.md R180). -/
theorem Alike.reset (h : Alike s u) : Alike (s.setEngine s.engine.reset) (u.setEngine u.engine.reset) :=
  .of_setInput h.1 ((congrArg Engine.reset h.2).trans (show _ = s.engine.reset.setInput u.engine.work 0 from rfl))

/-- While the engine is busy NOP alone is accepted (41_host_commands.md R126). -/
theorem commandAccepts_of_busy {p : Phase} (c : Command) (hbusy : p.busy = true) :
    commandAccepts c p = decide (c = .nop) := by
  cases p with
  | expand | reorder | reduce => cases c <;> rfl
  | idle | done | fault => cases hbusy

theorem performCommand_of_busy (c : Command) (hbusy : e.phase.busy = true) :
    performCommand P c e = if c = .nop then e else e.reject := by
  rw [performCommand, commandAccepts_of_busy c hbusy]
  cases c <;> rfl

theorem performCommand_setInput (hbusy : e.phase.busy = true) :
    performCommand P c (e.setInput m n) = (performCommand P c e).setInput m n := by
  rw [performCommand_of_busy c hbusy, performCommand_of_busy (e := e.setInput m n) c hbusy]
  split <;> rfl

theorem Alike.command (h : Alike s u) (hbusy : s.engine.phase.busy = true) (c : Command) :
    Alike (s.command P c) (u.command P c) :=
  (h.setEngine (f := performCommand P c) fun _ _ => performCommand_setInput hbusy).congr
    (respond_alike _ .ok) (respond_alike _ .ok)

theorem Alike.commandWord (h : Alike s u) (hbusy : s.engine.phase.busy = true) (w : Word) :
    Alike (s.commandWord P w) (u.commandWord P w) := by
  unfold State.commandWord
  cases decodeCommand w with
  | ok c => exact h.command hbusy c
  | error r => exact (h.setEngine (f := Engine.reject) fun _ _ => rfl).congr (respond_alike _ .ok) (respond_alike _ .ok)

end EngineUpdates

section StageSteps

theorem Engine.storeExpansion_setInput {k : Nat} (answer : Option (Vector Byte k)) :
    (e.setInput m n).storeExpansion answer = (e.storeExpansion answer).setInput m n := by
  cases answer <;> rfl

/-- EXPAND asks the primitive about the staged header, never about WORK (40_pipeline.md R103). -/
theorem Engine.expand_setInput : (e.setInput m n).expand P = (e.expand P).setInput m n :=
  Engine.storeExpansion_setInput _

theorem Engine.revcopy_setInput (h : e.revcopy P = .ok e') : (e.setInput m n).revcopy P = .ok (e'.setInput m n) := by
  obtain ⟨pad, hpad, hlt, rfl⟩ := Engine.revcopy_eq_ok.mp h
  exact Engine.revcopy_eq_ok.mpr ⟨pad, hpad, hlt, rfl⟩

theorem Engine.source_setInput (src : SpongeSrc) : (e.setInput m n).source src = e.source src := by cases src <;> rfl

theorem Engine.reduce_setInput (h : e.reduce P = .ok e') : (e.setInput m n).reduce P = .ok (e'.setInput m n) := by
  obtain ⟨pad, hpad, hanswer⟩ := Engine.reduce_eq_ok.mp h
  refine Engine.reduce_eq_ok.mpr ⟨pad, (Engine.source_setInput _).trans hpad, ?_⟩
  obtain ⟨hfail, rfl⟩ | ⟨d, hd, rfl⟩ := hanswer
  · exact .inl ⟨hfail, rfl⟩
  · exact .inr ⟨d, hd, rfl⟩

theorem stageStep_alike {p : Phase} {f : Engine → Except Fault Engine}
    (hf : ∀ e e' m n, f e = .ok e' → f (e.setInput m n) = .ok (e'.setInput m n)) (h : Alike s u)
    (hstep : stageStep p f s = .next t) : ∃ v, stageStep p f u = .next v ∧ Alike t v := by
  obtain ⟨hp, e, he, rfl⟩ := stageStep_eq_next.mp hstep
  have hu : f u.engine = .ok (e.setInput u.engine.work u.engine.workLen) := by
    rw [h.2]
    exact hf _ _ _ _ he
  exact ⟨_, stageStep_eq_next.mpr ⟨h.phase.trans hp, _, hu, rfl⟩, .of_setInput h.1 rfl⟩

end StageSteps

/-- Every instruction leads alike machines with a busy engine to alike machines. -/
theorem exec_alike (h : Alike s u) (hbusy : s.engine.phase.busy = true) (hexec : exec i s = .next t) :
    ∃ v, exec i u = .next v ∧ Alike t v := by
  cases i with
  | rd8 | rd32 => cases hexec; exact ⟨_, rfl, h.congr (respond_alike _ _) (respond_alike _ _)⟩
  | wr8 => cases hexec; exact ⟨_, rfl, h.congr (memWrite8_alike _ _ _) (memWrite8_alike _ _ _)⟩
  | wr32 addr d =>
    cases hexec
    by_cases hcmd : addr = 0x00000
    · subst hcmd
      exact ⟨_, rfl, h.commandWord hbusy d⟩
    · exact ⟨_, rfl, h.congr (memWrite32_alike hcmd d s) (memWrite32_alike hcmd d u)⟩
  | nop | prep | hash | clr => cases hexec; exact ⟨_, rfl, h.command hbusy _⟩
  | expand =>
    rw [exec_expand] at hexec ⊢
    exact stageStep_alike (fun _ _ _ _ he => by cases he; exact congrArg Except.ok Engine.expand_setInput) h hexec
  | revcopy => exact stageStep_alike (fun _ _ _ _ => Engine.revcopy_setInput) h hexec
  | reduce => exact stageStep_alike (fun _ _ _ _ => Engine.reduce_setInput) h hexec

theorem Alike.runs (h : Alike s u) (hrun : Runs s i s') : ∃ u', Runs u i u' ∧ Alike s' u' := by
  cases hrun with
  | request header d rest _ line dec => exact ⟨_, .request header d rest i (h.1 ▸ line) dec, h.setScript rest⟩
  | mark rest _ line dec => exact ⟨_, .mark rest i (h.1 ▸ line) (h.phase ▸ dec), h.setScript rest⟩
  | free _ line dec => exact ⟨_, .free i (h.1 ▸ line) (h.phase ▸ dec), h⟩

/-- Settles O48: in each way a step can go, the machine that is alike goes the same way. -/
theorem runIgnoresWorkWindow : Obligations.RunIgnoresWorkWindow := by
  unfold Obligations.RunIgnoresWorkWindow
  intro alike s t u (h : Alike s u) hbusy hstep
  rcases step_cases s with ⟨rest, line, hs⟩ | ⟨i, s', hrun, hs⟩ | ⟨header, d, rest, r, line, dec, hs⟩ |
    ⟨rest, r, _, dec, hs⟩ <;> rw [hs] at hstep
  · cases hstep
    exact ⟨_, step_of_reset (h.1 ▸ line), (h.setScript rest).reset⟩
  · obtain ⟨u', hrun', h'⟩ := h.runs hrun
    rw [hrun'.step]
    exact exec_alike h' (hrun.engine ▸ hbusy) hstep
  · cases hstep
    exact ⟨_, step_of_undecoded (h.1 ▸ line) dec,
      (h.setScript rest).congr (respond_alike _ .buserr) (respond_alike _ .buserr)⟩
  · rw [decodeStage_code_error.mp ⟨r, dec⟩] at hbusy
    cases hbusy

end Sys2Proof.Machine
end

section
/-! PROOFS. The decoder and the encoder (30_encoding.md R80 to R92): format by format, what decodes to what, and that the two
agree. -/

namespace Sys2Proof

variable {header : BitVec 22} {d w : Word} {code : BitVec 3} {c : Command} {i : Instr}

section Commands

theorem Command.decodeCommand_word (c : Command) : decodeCommand c.word = .ok c := by cases c <;> decide

/-- A command decodes from its own word only (R82). -/
theorem decodeCommand_eq_ok : decodeCommand w = .ok c ↔ w = c.word :=
  ⟨Command.eq_word, fun h => h ▸ c.decodeCommand_word⟩

/-- A word above 3 is illegal, and no other (R82). -/
theorem decodeCommand_eq_illegal : decodeCommand w = .error .illegalCommand ↔ 3 < w.toNat := by
  rcases decodeCommand_cases w with ⟨rfl, h⟩ | ⟨rfl, h⟩ | ⟨rfl, h⟩ | ⟨rfl, h⟩ | ⟨hw, h⟩
  · decide
  · decide
  · decide
  · decide
  · exact iff_of_true h hw

/-- The two ways of R82 for a word to be above 3: a bit of 31:8 is set, or `op` is 0x04 or more. -/
theorem three_lt_toNat_iff : 3 < w.toNat ↔ w.extractLsb' 8 24 ≠ 0 ∨ 0x04 ≤ (w.extractLsb' 0 8).toNat := by
  have hw := w.isLt
  rw [ne_eq, ← BitVec.toNat_inj, extractLsb'_toNat_div, extractLsb'_toNat_div, show (0 : BitVec 24).toNat = 0 from rfl]
  omega

theorem decode_command_eq_ok : decode (.command w) = .ok i ↔ ∃ c, decodeCommand w = .ok c ∧ i = c.instr := by
  cases h : decodeCommand w <;> simp [decode, Except.map, h, eq_comm]

theorem Command.encode_instr (c : Command) : encode c.instr = .command c.word := by cases c <;> rfl

end Commands

section Stages

/-- The three stage codes (R86). -/
theorem decodeStage_eq_ok : decodeStage code = .ok i ↔
    (code = 1 ∧ i = .expand) ∨ (code = 2 ∧ i = .revcopy) ∨ (code = 3 ∧ i = .reduce) := by
  simp only [← BitVec.toNat_inj, decodeStage, BitVec.reduceToNat]
  generalize code.toNat = k
  split <;> simp_all [eq_comm]

theorem encode_of_decodeStage (h : decodeStage code = .ok i) : encode i = .stage code := by
  obtain ⟨rfl, rfl⟩ | ⟨rfl, rfl⟩ | ⟨rfl, rfl⟩ := decodeStage_eq_ok.mp h <;> rfl

theorem exists_decodeStage_iff : (∃ i, decodeStage code = .ok i) ↔ 1 ≤ code.toNat ∧ code.toNat ≤ 3 := by
  simp only [decodeStage_eq_ok, exists_or, exists_and_left, exists_eq, and_true, ← BitVec.toNat_inj, BitVec.reduceToNat]
  omega

end Stages

section Requests

/-- Bits 21:19 of a header are `w` above `size` (R83). -/
theorem opcode_eq_iff {op : BitVec 3} : header.extractLsb' 19 3 = op ↔
    (header.extractLsb' 21 1).toNat = op.toNat / 4 ∧ (header.extractLsb' 19 2).toNat = op.toNat % 4 := by
  have hheader := header.isLt
  have hop := op.isLt
  simp only [← BitVec.toNat_inj, extractLsb'_toNat_div]
  omega

/-- The opcode table's mask compares bits 21:19 (R83, R92). -/
theorem and_mask_eq_iff {op : BitVec 3} : header &&& 0x380000 = op ++ 0#19 ↔ header.extractLsb' 19 3 = op := by
  rw [← BitVec.toNat_inj, ← BitVec.toNat_inj, header_and_mask, extractLsb'_toNat_div, BitVec.toNat_append,
    BitVec.toNat_ofNat, Nat.zero_mod, Nat.or_zero, Nat.shiftLeft_eq]
  omega

/-- All a request header can decode to, by its bits 21:19 (R84). -/
theorem decodeRequest_eq_ok_opcode : decodeRequest header d = .ok i ↔
    (header.extractLsb' 19 3 = 0b000 ∧ i = .rd8 (header.extractLsb' 0 19)) ∨
    (header.extractLsb' 19 3 = 0b010 ∧ i = .rd32 (header.extractLsb' 0 19)) ∨
    (header.extractLsb' 19 3 = 0b100 ∧ i = .wr8 (header.extractLsb' 0 19) d) ∨
    (header.extractLsb' 19 3 = 0b110 ∧ i = .wr32 (header.extractLsb' 0 19) d) := by
  simp only [opcode_eq_iff, and_assoc]
  exact decodeRequest_eq_ok

/-- Bit 19 is clear exactly for the two sizes that are not reserved (R84). -/
theorem getLsbD_19_eq_false_iff : header.getLsbD 19 = false ↔
    (header.extractLsb' 19 2).toNat = 0 ∨ (header.extractLsb' 19 2).toNat = 2 := by
  rw [BitVec.getLsbD, Nat.testBit_eq_decide_div_mod_eq, decide_eq_false_iff_not, extractLsb'_toNat_div]
  omega

theorem getLsbD_21_eq_false (h : (header.extractLsb' 21 1).toNat = 0) : header.getLsbD 21 = false :=
  Machine.getLsbD_eq_of_toNat (by rwa [extractLsb'_toNat_div] at h)

/-- A request decodes exactly where its size is not reserved, whichever `w` is (R84, R88). -/
theorem exists_decodeRequest_iff : (∃ i, decodeRequest header d = .ok i) ↔ header.getLsbD 19 = false := by
  rw [getLsbD_19_eq_false_iff]
  constructor
  · rintro ⟨i, h⟩
    obtain ⟨_, hsize, _⟩ | ⟨_, hsize, _⟩ | ⟨_, hsize, _⟩ | ⟨_, hsize, _⟩ := decodeRequest_eq_ok.mp h
    all_goals simp [hsize]
  · intro hsize
    have hwrite : (header.extractLsb' 21 1).toNat = 0 ∨ (header.extractLsb' 21 1).toNat = 1 := by omega
    obtain hwrite | hwrite := hwrite <;> obtain hsize | hsize := hsize
    · exact ⟨_, decodeRequest_eq_ok.mpr (.inl ⟨hwrite, hsize, rfl⟩)⟩
    · exact ⟨_, decodeRequest_eq_ok.mpr (.inr (.inl ⟨hwrite, hsize, rfl⟩))⟩
    · exact ⟨_, decodeRequest_eq_ok.mpr (.inr (.inr (.inl ⟨hwrite, hsize, rfl⟩)))⟩
    · exact ⟨_, decodeRequest_eq_ok.mpr (.inr (.inr (.inr ⟨hwrite, hsize, rfl⟩)))⟩

/-- A request that decodes is the encoding of its operation; a read's encoding keeps the header only (R83). -/
theorem encode_of_decodeRequest (h : decodeRequest header d = .ok i) :
    encode i = .request header d ∨ (header.getLsbD 21 = false ∧ encode i = .request header 0) := by
  obtain ⟨hwrite, hsize, rfl⟩ | ⟨hwrite, hsize, rfl⟩ | ⟨hwrite, hsize, rfl⟩ | ⟨hwrite, hsize, rfl⟩ :=
    decodeRequest_eq_ok.mp h
  · exact .inr ⟨getLsbD_21_eq_false hwrite, congrArg (Encoded.request · 0) (eq_requestHeader hwrite hsize).symm⟩
  · exact .inr ⟨getLsbD_21_eq_false hwrite, congrArg (Encoded.request · 0) (eq_requestHeader hwrite hsize).symm⟩
  · exact .inl (congrArg (Encoded.request · d) (eq_requestHeader hwrite hsize).symm)
  · exact .inl (congrArg (Encoded.request · d) (eq_requestHeader hwrite hsize).symm)

end Requests

section RoundTrip

theorem Command.decode_encode_instr (c : Command) : decode (encode c.instr) = .ok c.instr := by
  rw [c.encode_instr]
  exact decode_command_eq_ok.mpr ⟨c, c.decodeCommand_word, rfl⟩

/-- Settles O1: a request header gives back the three fields it was built from, a command its own word, a stage step its
code. -/
theorem decodeEncodeAgree : Obligations.DecodeEncodeAgree := by
  unfold Obligations.DecodeEncodeAgree
  intro i _
  cases i with
  | rd8 addr =>
    exact decodeRequest_eq_ok.mpr (.inl ⟨requestHeader_w, requestHeader_size, by rw [requestHeader_addr]⟩)
  | rd32 addr =>
    exact decodeRequest_eq_ok.mpr (.inr (.inl ⟨requestHeader_w, requestHeader_size, by rw [requestHeader_addr]⟩))
  | wr8 addr wdata =>
    exact decodeRequest_eq_ok.mpr
      (.inr (.inr (.inl ⟨requestHeader_w, requestHeader_size, by rw [requestHeader_addr]⟩)))
  | wr32 addr wdata =>
    exact decodeRequest_eq_ok.mpr
      (.inr (.inr (.inr ⟨requestHeader_w, requestHeader_size, by rw [requestHeader_addr]⟩)))
  | nop => exact Command.nop.decode_encode_instr
  | prep => exact Command.prep.decode_encode_instr
  | hash => exact Command.hash.decode_encode_instr
  | clr => exact Command.clr.decode_encode_instr
  | expand | revcopy | reduce => rfl

/-- Settles O2: format by format; only a read leaves bits of its encoding unused. -/
theorem encodeDecodeAgree : Obligations.EncodeDecodeAgree := by
  unfold Obligations.EncodeDecodeAgree
  intro enc i h
  cases enc with
  | request header wdata =>
    obtain hi | ⟨hread, hi⟩ := encode_of_decodeRequest h
    · exact .inl hi
    · exact .inr ⟨header, wdata, rfl, hread, hi⟩
  | command w =>
    obtain ⟨c, hc, rfl⟩ := decode_command_eq_ok.mp h
    rw [c.encode_instr, decodeCommand_eq_ok.mp hc]
    exact .inl rfl
  | stage code => exact .inl (encode_of_decodeStage h)

end RoundTrip

section Acceptance

theorem exists_decode_command_iff : (∃ i, decode (.command w) = .ok i) ↔ w.toNat ≤ 3 := by
  simp only [decode_command_eq_ok]
  rcases decodeCommand_cases w with ⟨rfl, h⟩ | ⟨rfl, h⟩ | ⟨rfl, h⟩ | ⟨rfl, h⟩ | ⟨hw, h⟩
  · exact iff_of_true ⟨_, .nop, h, rfl⟩ (by decide)
  · exact iff_of_true ⟨_, .prep, h, rfl⟩ (by decide)
  · exact iff_of_true ⟨_, .hash, h, rfl⟩ (by decide)
  · exact iff_of_true ⟨_, .clr, h, rfl⟩ (by decide)
  · exact iff_of_false (by simp [h]) (not_le.mpr hw)

/-- Settles O3: each format's decoder accepts what R88 does not list for it. -/
theorem decoderAcceptsExactlyWellFormed : Obligations.DecoderAcceptsExactlyWellFormed := by
  unfold Obligations.DecoderAcceptsExactlyWellFormed
  intro enc
  cases enc with
  | request header wdata =>
    rw [Encoded.wellFormed, Bool.not_eq_true']
    exact exists_decodeRequest_iff
  | command w =>
    rw [Encoded.wellFormed, decide_eq_true_eq]
    exact exists_decode_command_iff
  | stage code =>
    rw [Encoded.wellFormed, decide_eq_true_eq]
    exact exists_decodeStage_iff

/-- Settles O5: the table's matches are the four values of bits 21:19. -/
theorem requestDecodingFollowsTable : Obligations.RequestDecodingFollowsTable := by
  unfold Obligations.RequestDecodingFollowsTable
  intro header wdata i
  simp only [decodeRequest_eq_ok_opcode, ← and_mask_eq_iff]
  rfl

/-- Settles O6: the ten words, decoded. -/
theorem writtenOutWordsDecode : Obligations.WrittenOutWordsDecode := by
  unfold Obligations.WrittenOutWordsDecode
  decide

end Acceptance

end Sys2Proof

namespace Sys2Proof.Machine

variable {w : Word}

/-- A write of an illegal word to CMD is rejected (41_host_commands.md R120, R121). -/
theorem exec_wr32_cmd_of_illegal {r : DecodeError} (h : decodeCommand w = .error r) (s : State) :
    exec (.wr32 0x00000 w) s =
      .next { s with engine := { s.engine with ill := true }, responses := .ok :: s.responses } := by
  change Host.Outcome.next (s.commandWord Config.params w) = _
  rw [State.commandWord, h]
  rfl

/-- Settles O4: a command decodes from its own word, and every other word is above 3. -/
theorem commandWordDecoding : Obligations.CommandWordDecoding := by
  unfold Obligations.CommandWordDecoding
  intro w
  rw [show w &&& 0xFFFFFFFF = w from BitVec.and_allOnes]
  exact ⟨decodeCommand_eq_ok, decodeCommand_eq_ok, decodeCommand_eq_ok, decodeCommand_eq_ok,
    decodeCommand_eq_illegal.trans three_lt_toNat_iff, exec_wr32_cmd_of_illegal⟩

end Sys2Proof.Machine
end

section
/-! PROOFS. What a step does with an encoded word (30_encoding.md R84, R86, R91): a bus request by its `w` and `size`, the
sequencer's turn by PHASE, and a word that `withFetchWord` has placed (logs 7, 12, 16). -/

namespace Sys2Proof.Machine

variable {P : Params} {s : State} {i : Instr} {header : BitVec 22} {d w : Word} {code : BitVec 3} {enc : Encoded}
  {p : Phase} {n m : Nat}

section Sequencer

theorem sequencerTurn_of_quiet (hquiet : s.engine.phase.busy = false) : sequencerTurn s = .event s := by
  obtain ⟨r, hr⟩ := decodeStage_code_error.mpr hquiet
  rw [sequencerTurn, hr]

/-- Settles O12: PHASE selects no stage step there, so the sequencer's turn leaves the machine as it is. -/
theorem quietEngineWaits : Obligations.QuietEngineWaits := by
  unfold Obligations.QuietEngineWaits
  intro s hphase
  have hquiet : s.engine.phase.busy = false := by
    obtain h | h | h := hphase <;> rw [h] <;> rfl
  refine ⟨fun rest line => ?_, fun line => ?_⟩
  · have hturn : sequencerTurn (s.setScript rest) = .event (s.setScript rest) := sequencerTurn_of_quiet hquiet
    simp only [step, fetch, line, hturn]
    rfl
  · simp only [step, fetch, line, sequencerTurn_of_quiet hquiet]

/-- A stage step performed in its own phase is not refused (log 10). -/
theorem stageStep_ne_refused {f : Engine → Except Fault Engine} (hphase : s.engine.phase = p) (x : Refusal) :
    stageStep p f s ≠ .refused x := by
  rw [stageStep, if_pos hphase]
  split <;> nofun

theorem exec_ne_refused_of_stage (dec : decodeStage s.engine.phase.code = .ok i) (x : Refusal) :
    exec i s ≠ .refused x := by
  obtain ⟨hphase, rfl⟩ | ⟨hphase, rfl⟩ | ⟨hphase, rfl⟩ := decodeStage_code.mp dec
  · exact exec_expand s ▸ stageStep_ne_refused hphase x
  · exact exec_revcopy s ▸ stageStep_ne_refused hphase x
  · exact exec_reduce s ▸ stageStep_ne_refused hphase x

/-- A bus operation always answers a next state. -/
theorem exec_ne_refused_of_request (dec : decodeRequest header d = .ok i) (s : State) (x : Refusal) :
    exec i s ≠ .refused x := by
  obtain ⟨_, rfl⟩ | ⟨_, rfl⟩ | ⟨_, rfl⟩ | ⟨_, rfl⟩ := decodeRequest_eq_ok_opcode.mp dec
  · exact exec_rd8 s _ ▸ nofun
  · exact exec_rd32 s _ ▸ nofun
  · exact exec_wr8 s _ d ▸ nofun
  · exact exec_wr32 s _ d ▸ nofun

/-- Settles O40: of the instructions only the stage steps can be refused, and a step runs one in its own phase only. -/
theorem noStepRefuses : Obligations.NoStepRefuses := by
  unfold Obligations.NoStepRefuses
  intro s x
  rcases step_cases s with ⟨rest, _, h⟩ | ⟨i, u, hrun, h⟩ | ⟨_, _, rest, _, _, _, h⟩ | ⟨rest, _, _, _, h⟩ <;> rw [h]
  · nofun
  · cases hrun with
    | request _ _ _ _ _ dec => exact exec_ne_refused_of_request dec _ x
    | mark rest _ _ dec => exact exec_ne_refused_of_stage (s := s.setScript rest) dec x
    | free _ _ dec => exact exec_ne_refused_of_stage dec x
  · nofun
  · nofun

end Sequencer

section Requests

/-- Settles O9: bits 21:19 select one of the four operations, or, with bit 19 set, none. -/
theorem requestsByWidth : Obligations.RequestsByWidth := by
  unfold Obligations.RequestsByWidth
  intro s header d rest line
  have hrun {i : Instr} (dec : decodeRequest header d = .ok i) : step s = exec i (s.setScript rest) :=
    (Runs.request header d rest i line dec).step
  refine ⟨fun hop => hrun (decodeRequest_eq_ok_opcode.mpr (.inl ⟨hop, rfl⟩)),
    fun hop => hrun (decodeRequest_eq_ok_opcode.mpr (.inr (.inl ⟨hop, rfl⟩))),
    fun hop => hrun (decodeRequest_eq_ok_opcode.mpr (.inr (.inr (.inl ⟨hop, rfl⟩)))),
    fun hop => hrun (decodeRequest_eq_ok_opcode.mpr (.inr (.inr (.inr ⟨hop, rfl⟩)))), fun hsize => ?_⟩
  have hbit : header.getLsbD 19 = (header.extractLsb' 19 2).getLsbD 0 := by simp
  have hreserved : header.getLsbD 19 = true := by
    obtain h | h := hsize <;> rw [hbit, h] <;> rfl
  obtain ⟨r, dec⟩ := decodeRequest_reserved d hreserved
  exact step_of_undecoded line dec

end Requests

section Placed

/-- A write of a command's word to CMD is the command (41_host_commands.md R120; log 9). -/
theorem exec_wr32_cmd {c : Command} (h : decodeCommand w = .ok c) (s : State) :
    exec (.wr32 0x00000 w) s = exec c.instr s := by
  calc exec (.wr32 0x00000 w) s = .next (s.commandWord Config.params w) := rfl
    _ = .next (s.command Config.params c) := by rw [State.commandWord, h]
    _ = exec c.instr s := by cases c <;> rfl

theorem step_place_request (dec : decode (.request header d) = .ok i) :
    step (s.place P (.request header d)) = exec i s :=
  (Runs.request header d s.script i rfl dec).step

theorem step_place_command (dec : decode (.command w) = .ok i) : step (s.place P (.command w)) = exec i s := by
  obtain ⟨c, hc, rfl⟩ := decode_command_eq_ok.mp dec
  have hwrite : decode (encode (.wr32 0x00000 w)) = .ok (.wr32 0x00000 w) := decodeEncodeAgree _ rfl
  exact (step_place_request (P := P) hwrite).trans (exec_wr32_cmd hc s)

@[simp] theorem Engine.atStage_phase (e : Engine) : (e.atStage P p).phase = p := by cases p <;> rfl

/-- A stage code that selects a stage step is the code of a phase (R86). -/
theorem exists_phaseOfCode (dec : decodeStage code = .ok i) : ∃ p, phaseOfCode code = some p ∧ p.code = code := by
  obtain ⟨rfl, _⟩ | ⟨rfl, _⟩ | ⟨rfl, _⟩ := decodeStage_eq_ok.mp dec
  · exact ⟨.expand, rfl, rfl⟩
  · exact ⟨.reorder, rfl, rfl⟩
  · exact ⟨.reduce, rfl, rfl⟩

theorem step_place_stage (dec : decodeStage code = .ok i) :
    ∃ p : Phase, p.code = code ∧ step (s.place P (.stage code)) = exec i (s.setEngine (s.engine.atStage P p)) := by
  obtain ⟨p, hp, rfl⟩ := exists_phaseOfCode dec
  have hplace : s.place P (.stage p.code) = (s.setEngine (s.engine.atStage P p)).setScript (.step :: s.script) := by
    simp only [State.place, hp]
  rw [hplace]
  exact ⟨p, rfl, (Runs.mark s.script i rfl (by simpa using dec)).step⟩

theorem decodeTableWord_eq_some : decodeTableWord n m = some i ↔
    ∃ enc, tableWord n m = some enc ∧ decode enc = .ok i := by
  have toOption_eq_some {x : Except DecodeError Instr} : x.toOption = some i ↔ x = .ok i := by
    cases x <;> simp [Except.toOption]
  simp only [decodeTableWord, Option.bind_eq_some_iff, toOption_eq_some]

theorem withFetchWord_eq_place (h : tableWord n m = some enc) : s.withFetchWord n m = s.place Config.params enc := by
  rw [State.withFetchWord, State.placeWord, h]

/-- A word of 3 or 8 bits is a stage code (log 16). -/
theorem eq_stage_of_tableWord (hn : n = 3 ∨ n = 8) (h : tableWord n m = some enc) :
    enc = .stage (BitVec.ofNat 3 m) := by
  rw [tableWord, if_pos hn] at h
  split at h
  · exact (Option.some.inj h).symm
  · cases h

/-- A word of another length is none (log 16). -/
theorem ne_stage_of_tableWord (hn : ¬(n = 3 ∨ n = 8)) (h : tableWord n m = some enc) : enc ≠ .stage code := by
  rintro rfl
  rw [tableWord, if_neg hn] at h
  split_ifs at h <;> cases h

/-- Settles O8: a word placed as a request's line, as the data of a write of CMD, or as PHASE is what the step decodes. -/
theorem placedWordRunsNext : Obligations.PlacedWordRunsNext := by
  unfold Obligations.PlacedWordRunsNext
  intro s n w i h
  obtain ⟨enc, henc, dec⟩ := decodeTableWord_eq_some.mp h
  rw [withFetchWord_eq_place henc]
  refine ⟨fun hn => ?_, fun hn => ?_⟩
  · cases enc with
    | request header wdata => exact step_place_request dec
    | command word => exact step_place_command dec
    | stage code => exact absurd rfl (ne_stage_of_tableWord (by omega) henc)
  · obtain rfl := eq_stage_of_tableWord hn henc
    exact step_place_stage dec

end Placed

end Sys2Proof.Machine
end

section
/-! PROOFS. The chunks of a scratchpad and its reversal (40_pipeline.md R104): REV reverses the chunks, and a scratchpad
is its chunks joined in order. -/

namespace Sys2Proof.Machine

variable {P : Params} {pad pad' : List Byte} {c i k n : Nat}

theorem rev_length : (rev P pad).length = P.psz := by simp [rev]

theorem chunkOf_getElem? (hk : k < P.krate) : (chunkOf P pad c)[k]? = pad[c * P.krate + k]? := by
  rw [chunkOf, List.getElem?_take_of_lt hk, List.getElem?_drop]

/-- Byte `k` of chunk `i` is a byte of the scratchpad. -/
theorem chunk_index_lt (hi : i < 546) (hk : k < P.krate) : i * P.krate + k < P.psz := by
  have : (i + 1) * P.krate ≤ 546 * P.krate := Nat.mul_le_mul_right _ hi
  rw [Nat.succ_mul, ← P.psz_eq] at this
  omega

/-- Byte `k` of chunk `i` of REV is byte `k` of chunk `545 - i`. -/
theorem rev_getElem? (hpad : pad.length = P.psz) (hi : i < 546) (hk : k < P.krate) :
    (rev P pad)[i * P.krate + k]? = pad[(545 - i) * P.krate + k]? := by
  have hdiv : (i * P.krate + k) / P.krate = i := by
    rw [Nat.mul_comm, Nat.mul_add_div P.krate_pos, Nat.div_eq_of_lt hk, Nat.add_zero]
  have hmod : (i * P.krate + k) % P.krate = k := by
    rw [Nat.mul_comm, Nat.mul_add_mod, Nat.mod_eq_of_lt hk]
  have hsource : (545 - i) * P.krate + k < pad.length := hpad ▸ chunk_index_lt (by omega) hk
  simp [rev, chunk_index_lt hi hk, hdiv, hmod, KPOW_MUL, hsource]

theorem chunkOf_rev (hpad : pad.length = P.psz) (hc : c < 546) :
    chunkOf P (rev P pad) c = chunkOf P pad (545 - c) := by
  refine List.ext_getElem? fun k => ?_
  by_cases hk : k < P.krate
  · rw [chunkOf_getElem? hk, chunkOf_getElem? hk, rev_getElem? hpad hc hk]
  · rw [List.getElem?_eq_none, List.getElem?_eq_none]
    · rw [chunkOf_length hpad (by omega)]; omega
    · rw [chunkOf_length rev_length hc]; omega

/-- The first `n` chunks in order are the first `n * KRATE` bytes. -/
theorem chunks_flatten (n : Nat) : ((List.range n).map (chunkOf P pad)).flatten = pad.take (n * P.krate) := by
  induction n with
  | zero => simp
  | succ n ih => simp [List.range_succ, ih, chunkOf, Nat.succ_mul, List.take_add]

theorem all_chunks_flatten (hpad : pad.length = P.psz) : ((List.range 546).map (chunkOf P pad)).flatten = pad := by
  rw [chunks_flatten, ← P.psz_eq, ← hpad, List.take_length]

/-- Scratchpads of the same chunks are the same. -/
theorem eq_iff_chunkOf_eq (hpad : pad.length = P.psz) (hpad' : pad'.length = P.psz) :
    pad = pad' ↔ ∀ c < 546, chunkOf P pad c = chunkOf P pad' c := by
  refine ⟨fun h _ _ => h ▸ rfl, fun h => ?_⟩
  rw [← all_chunks_flatten hpad, ← all_chunks_flatten hpad']
  exact congrArg List.flatten (List.map_congr_left fun c hc => h c (List.mem_range.mp hc))

theorem rev_rev (hpad : pad.length = P.psz) : rev P (rev P pad) = pad := by
  refine (eq_iff_chunkOf_eq rev_length hpad).mpr fun c hc => ?_
  rw [chunkOf_rev rev_length hc, chunkOf_rev hpad (by omega), show 545 - (545 - c) = c by omega]

theorem rev_eq_self_iff (hpad : pad.length = P.psz) :
    rev P pad = pad ↔ ∀ c < 546, chunkOf P pad c = chunkOf P pad (545 - c) := by
  rw [eq_iff_chunkOf_eq rev_length hpad]
  refine forall₂_congr fun c hc => ?_
  rw [chunkOf_rev hpad hc, eq_comm]

/-- With chunks of one byte the order of the chunks is the order of the bytes. -/
theorem rev_eq_reverse (hpad : pad.length = P.psz) (hone : P.krate = 1) : rev P pad = pad.reverse := by
  have hlength : pad.length = 546 := by rw [hpad, P.psz_eq, hone]
  refine List.ext_getElem? fun i => ?_
  by_cases hi : i < 546
  · have hbyte := rev_getElem? (k := 0) hpad hi P.krate_pos
    simp only [hone, Nat.mul_one, Nat.add_zero] at hbyte
    rw [hbyte, List.getElem?_reverse (by omega), hlength]
  · rw [List.getElem?_eq_none, List.getElem?_eq_none]
    · rw [List.length_reverse]; omega
    · rw [rev_length, ← hpad]; omega

/-- Settles O51: each clause is a lemma of this part, REV seen chunk by chunk. -/
theorem revReversesChunks : Obligations.RevReversesChunks := by
  unfold Obligations.RevReversesChunks
  intro P pad hpad
  exact ⟨rev_length, fun i k hi hk => rev_getElem? hpad (Nat.lt_succ_of_le hi) hk, rev_rev hpad, fun i _ => by omega,
    (rev_eq_self_iff hpad).trans (forall_congr' fun _ => by rw [Nat.lt_succ_iff]), rev_eq_reverse hpad⟩

/-- Chunks that all hold a value join to their bytes in order. -/
theorem joinChunks_map_some (chunks : List (List Byte)) : joinChunks (chunks.map some) = some chunks.flatten := by
  induction chunks with
  | nil => rfl
  | cons chunk rest ih => simp [joinChunks, ih]

/-- A scratchpad holds no value exactly where a chunk holds none (R111). -/
theorem joinChunks_eq_none {chunks : List (Option (List Byte))} : joinChunks chunks = none ↔ none ∈ chunks := by
  induction chunks with
  | nil => simp [joinChunks]
  | cons chunk rest ih =>
    cases chunk with
    | none => simp [joinChunks]
    | some bytes => rw [List.mem_cons, ← ih]; cases h : joinChunks rest <;> simp [joinChunks, h]

/-- The first `n` chunks of SP2 are those of `REV(SP1)`, with SP1 holding `pad` (R105). -/
def Engine.Reversed (P : Params) (pad : List Byte) (n : Nat) (e : Engine) : Prop :=
  ∀ i : Fin 546, i.val < n → e.sp2[i] = some (chunkOf P pad (545 - i.val))

variable {e : Engine}

/-- REVCOPY extends what has been reversed by a chunk. -/
theorem Engine.Reversed.copyChunk (h : e.Reversed P pad e.chunk.toNat) :
    (e.copyChunk P pad).Reversed P pad (e.chunk.toNat + 1) := by
  intro i hi
  rw [Engine.copyChunk_getElem]
  split
  · rename_i heq; rw [heq]
  · exact h i (by omega)

/-- All 546 chunks together are `REV(SP1)` (R106). -/
theorem Engine.Reversed.joinChunks (h : e.Reversed P pad 546) (hpad : pad.length = P.psz) :
    joinChunks e.sp2.toList = some (rev P pad) := by
  have hchunks : e.sp2.toList = ((List.range 546).map (chunkOf P (rev P pad))).map some := by
    refine List.ext_getElem (by simp) fun i hi _ => ?_
    have hlt : i < 546 := by simpa using hi
    have hchunk : e.sp2[i] = some (chunkOf P pad (545 - i)) := h ⟨i, hlt⟩ hlt
    simp [hchunk, chunkOf_rev hpad hlt]
  rw [hchunks, joinChunks_map_some, all_chunks_flatten rev_length]

end Sys2Proof.Machine
end

section
/-! PROOFS. Every step keeps a run correct (40_pipeline.md R110), and from a state that meets the invariant the machine
goes on (R111). -/

namespace Sys2Proof.Machine

variable {P : Params} {i : Instr} {e e' : Engine} {pad : List Byte} {s : State}

section Kpow

variable {header : List Byte}

theorem kpow_eq_none (h : spongeHash P header (8 * P.hdrBytes) P.psz = none) : kpow P header = none := by
  rw [kpow, h]

theorem kpow_eq_reduction {s1 : Vector Byte P.psz} (h : spongeHash P header (8 * P.hdrBytes) P.psz = some s1) :
    kpow P header =
      spongeHash P (if branchOf (versionOf P header) then rev P s1.toList else s1.toList) (8 * P.psz) 40 := by
  rw [kpow, h]

end Kpow

section Updates

/-- The correctness of a run does not speak of ILL, WORK_LEN and WORK. -/
theorem Engine.RunCorrect.of_hostWrite (h : e.RunCorrect P) (work : Memory) (ill : Bool) (workLen : Word) :
    Engine.RunCorrect P { e with ill := ill, workLen := workLen, work := work } :=
  ⟨h.version, h.sp1, h.sp2, h.done, h.failed⟩

/-- A run that raised a fault is correct where the fault is no PrimitiveFailure, or `KPOW(HDR)` has no value. -/
theorem Engine.RunCorrect.raise {c : Err} (hkpow : c = .primitiveFailure → kpow P e.hdr = none) :
    (e.raise c).RunCorrect P where
  version := nofun
  sp1 := by simp
  sp2 := nofun
  done := nofun
  failed _ := hkpow

theorem Engine.RunCorrect.beginRun (e : Engine) : (e.beginRun P).RunCorrect P where
  version _ := ⟨rfl, rfl⟩
  sp1 := by simp
  sp2 := nofun
  done := nofun
  failed := nofun

theorem Engine.RunCorrect.expand (h : e.RunCorrect P) (hphase : e.phase = .expand) (hchunk : e.chunk = 0)
    {r : Vector Byte P.psz} (hanswer : spongeHash P e.hdr (8 * P.hdrBytes) P.psz = some r) :
    Engine.RunCorrect P { e with sp1 := some r.toList, phase := if e.branch then .reorder else .reduce } where
  version _ := h.version (by rw [hphase]; rfl)
  sp1 _ := ⟨r, hanswer, rfl⟩
  sp2 _ _ _ i hi := by simp [hchunk] at hi
  done hp := by dsimp only at hp; split at hp <;> cases hp
  failed hp := by dsimp only at hp; split at hp <;> cases hp

theorem Engine.RunCorrect.copyChunk (h : e.RunCorrect P) (hphase : e.phase = .reorder) (hsrc : e.sp1 = some pad)
    (hlt : e.chunk.toNat < 546) : (e.copyChunk P pad).RunCorrect P := by
  have hcopied : (e.copyChunk P pad).Reversed P pad (e.copyChunk P pad).chunk.toNat := by
    rw [Engine.copyChunk_chunk_toNat hlt]
    exact Engine.Reversed.copyChunk (h.sp2 pad hsrc (.inl hphase))
  have hbusy : (e.copyChunk P pad).phase.busy = true := by
    rw [Engine.copyChunk_phase, hphase]
    split <;> rfl
  exact {
    version := fun _ => h.version (by rw [hphase]; rfl)
    sp1 := fun _ => h.sp1 (.inl hphase)
    sp2 := fun pad' hpad' _ => by
      cases hsrc.symm.trans hpad'
      exact hcopied
    done := fun hp => by rw [hp] at hbusy; cases hbusy
    failed := fun hp => by rw [hp] at hbusy; cases hbusy }

/-- What REDUCE asks of the primitive is the second call of `KPOW(HDR)`: on Branch A its source is SP1, on Branch B it is
`REV(SP1)`. -/
theorem Engine.RunCorrect.kpow_eq (h : e.RunCorrect P) (hinv : e.Inv P) (hphase : e.phase = .reduce)
    (hsrc : e.source (if e.branch then .sp2 else .sp1) = some pad) :
    kpow P e.hdr = spongeHash P pad (8 * P.psz) 40 := by
  obtain ⟨s1, hanswer, hs1⟩ := h.sp1 (.inr hphase)
  obtain ⟨-, hbranch⟩ := h.version (by rw [hphase]; rfl)
  rw [kpow_eq_reduction hanswer, ← hbranch]
  rw [Engine.reduce_source] at hsrc
  cases hb : e.branch with
  | false =>
    rw [hb, if_neg nofun, hs1] at hsrc
    cases hsrc
    rfl
  | true =>
    rw [hb, if_pos rfl] at hsrc
    have hall : e.Reversed P s1.toList 546 := by
      have hsp2 := h.sp2 _ hs1 (.inr ⟨hphase, hb⟩)
      rwa [((hinv.r41.item8 hphase).2 hb).1] at hsp2
    obtain rfl : rev P s1.toList = pad := Option.some.inj ((hall.joinChunks (by simp)).symm.trans hsrc)
    rfl

end Updates

/-- Every effect of an instruction keeps a run correct. -/
theorem Effect.keeps_runCorrect (heff : Effect P i e e') (hinv : e.Inv P) (h : e.RunCorrect P) : e'.RunCorrect P := by
  cases heff with
  | stay => exact h
  | writeWorkLen v => exact h.of_hostWrite e.work e.ill v
  | writeWork addr d => exact h.of_hostWrite (Memory.write P e.work addr.toNat (d.extractLsb' 0 8)) e.ill e.workLen
  | illegal => exact h.of_hostWrite e.work true e.workLen
  | reject => exact h.of_hostWrite e.work true e.workLen
  | prep _ idle => exact .of_idle idle
  | shortHeader => exact .raise nofun
  | beginRun => exact .beginRun e
  | clr => exact .of_idle rfl
  | expandFails _ _ ans => exact .raise fun _ => kpow_eq_none ans
  | expand _ ph r ans => exact h.expand ph (hinv.expand_chunk ph) ans
  | copyChunk _ ph pad src lt => exact h.copyChunk ph src lt
  | reduceFails _ ph pad src ans => exact .raise fun _ => (h.kpow_eq hinv ph src).trans ans
  | reduce _ ph pad src d ans =>
    exact ⟨fun _ => h.version (by rw [ph]; rfl), by simp, nofun, fun _ => (h.kpow_eq hinv ph src).trans ans, nofun⟩

/-- Settles O45: RESET ends the run, every effect of an instruction keeps it correct, and another step leaves it alone. -/
theorem stepKeepsRunCorrect : Obligations.StepKeepsRunCorrect := by
  unfold Obligations.StepKeepsRunCorrect
  intro s t hinv h hstep
  rcases step_effect hstep with ⟨_, hreset⟩ | ⟨i, u, _, heff⟩ | hsame
  · rw [hreset]; exact .of_idle rfl
  · exact heff.keeps_runCorrect hinv h
  · rwa [hsame]

section Safety

/-- REVCOPY has its source where the invariant holds (R111). -/
theorem Engine.Inv.revcopy_ok (h : e.Inv P) (hphase : e.phase = .reorder) : ∃ e', e.revcopy P = .ok e' := by
  obtain ⟨-, hchunk, hsp1, -⟩ := h.r41.item7 hphase
  obtain ⟨pad, hpad⟩ := Option.isSome_iff_exists.mp hsp1
  exact ⟨_, Engine.revcopy_eq_ok.mpr ⟨pad, hpad, by omega, rfl⟩⟩

/-- REDUCE has its source where the invariant holds (R111). -/
theorem Engine.Inv.reduce_source_isSome (h : e.Inv P) (hphase : e.phase = .reduce) :
    ∃ pad, e.source (if e.branch then .sp2 else .sp1) = some pad := by
  obtain ⟨hsp1, hsp2⟩ := h.r41.item8 hphase
  rw [Engine.reduce_source]
  cases hb : e.branch with
  | false => exact Option.isSome_iff_exists.mp hsp1
  | true =>
    refine Option.ne_none_iff_exists'.mp fun hnone => ?_
    obtain ⟨k, hk, hchunk⟩ := List.getElem_of_mem (joinChunks_eq_none.mp hnone)
    have hlt : k < 546 := by simpa using hk
    have hempty : e.sp2[(⟨k, hlt⟩ : Fin 546)] = none := hchunk
    have hvalue := (hsp2 hb).2 ⟨k, hlt⟩
    rw [hempty] at hvalue
    cases hvalue

theorem Engine.Inv.reduce_ok (h : e.Inv P) (hphase : e.phase = .reduce) : ∃ e', e.reduce P = .ok e' := by
  obtain ⟨pad, hpad⟩ := h.reduce_source_isSome hphase
  rw [Engine.reduce_eq, hpad]
  exact ⟨_, rfl⟩

theorem stageStep_safe {p : Phase} {f : Engine → Except Fault Engine} (hphase : s.engine.phase = p)
    (hok : ∃ e, f s.engine = .ok e) : Safe (stageStep p f s) := by
  obtain ⟨e, he⟩ := hok
  rw [stageStep_eq_next.mpr ⟨hphase, e, he, rfl⟩]
  trivial

theorem exec_safe_of_stage (hinv : s.engine.Inv Config.params) (dec : decodeStage s.engine.phase.code = .ok i) :
    Safe (exec i s) := by
  obtain ⟨hphase, rfl⟩ | ⟨hphase, rfl⟩ | ⟨hphase, rfl⟩ := decodeStage_code.mp dec
  · exact exec_expand s ▸ stageStep_safe hphase ⟨_, rfl⟩
  · exact exec_revcopy s ▸ stageStep_safe hphase (hinv.revcopy_ok hphase)
  · exact exec_reduce s ▸ stageStep_safe hphase (hinv.reduce_ok hphase)

theorem exec_safe_of_request {header : BitVec 22} {d : Word} (dec : decodeRequest header d = .ok i) (s : State) :
    Safe (exec i s) := by
  obtain ⟨_, rfl⟩ | ⟨_, rfl⟩ | ⟨_, rfl⟩ | ⟨_, rfl⟩ := decodeRequest_eq_ok_opcode.mp dec <;> trivial

/-- Settles O41: a bus operation always answers, and a stage step the sequencer takes finds its source. -/
theorem invariantStatesAreSafe : Obligations.InvariantStatesAreSafe := by
  unfold Obligations.InvariantStatesAreSafe
  intro s hinv
  rcases step_cases s with ⟨rest, _, h⟩ | ⟨i, u, hrun, h⟩ | ⟨_, _, rest, _, _, _, h⟩ | ⟨rest, _, _, _, h⟩ <;> rw [h]
  · trivial
  · cases hrun with
    | request _ _ _ _ _ dec => exact exec_safe_of_request dec _
    | mark rest _ _ dec => exact exec_safe_of_stage (s := s.setScript rest) hinv dec
    | free _ _ dec => exact exec_safe_of_stage hinv dec
  · trivial
  · trivial

end Safety

end Sys2Proof.Machine
end

section
/-! PROOFS. What HASH and the stage steps do (40_pipeline.md R101 to R107): each in its own phase, where it finds its
source, and what the machine does elsewhere (logs 10, 11). -/

namespace Sys2Proof.Machine

variable {P : Params} {e : Engine} {s : State} {p : Phase} {pad : List Byte}

/-- A stage step outside its phase is refused (log 10). -/
theorem stageStep_of_phase_ne {f : Engine → Except Fault Engine} (hphase : s.engine.phase ≠ p) :
    stageStep p f s = .refused .stageNotEnabled :=
  if_neg hphase

/-- A stage step in its phase stops where its effect has no answer (log 11). -/
theorem stageStep_of_error {f : Engine → Except Fault Engine} {r : Fault} (hphase : s.engine.phase = p)
    (herror : f s.engine = .error r) : stageStep p f s = .fault r := by
  rw [stageStep, if_pos hphase, herror]

theorem stageStep_of_ok {f : Engine → Except Fault Engine} (hphase : s.engine.phase = p) (hok : f s.engine = .ok e) :
    stageStep p f s = .next (s.setEngine e) :=
  stageStep_eq_next.mpr ⟨hphase, e, hok, rfl⟩

/-- Settles O30: each of the three is a stage step of one phase. -/
theorem stageStepsOnlyInTheirPhase : Obligations.StageStepsOnlyInTheirPhase := by
  unfold Obligations.StageStepsOnlyInTheirPhase
  intro s
  rw [exec_expand, exec_revcopy, exec_reduce]
  exact ⟨stageStep_of_phase_ne, stageStep_of_phase_ne, stageStep_of_phase_ne⟩

theorem Engine.revcopy_of_valueless (hsp1 : e.sp1 = none) : e.revcopy P = .error .scratchpadEmpty := by
  rw [Engine.revcopy, hsp1]

theorem Engine.revcopy_of_large_chunk (hsp1 : e.sp1 ≠ none) (hchunk : 546 ≤ e.chunk.toNat) :
    e.revcopy P = .error .chunkOutOfRange := by
  obtain ⟨pad, hpad⟩ := Option.ne_none_iff_exists'.mp hsp1
  rw [Engine.revcopy, hpad]
  exact if_neg (Nat.not_lt.mpr hchunk)

theorem Engine.reduce_of_valueless (hsource : e.source (if e.branch then .sp2 else .sp1) = none) :
    e.reduce P = .error .scratchpadEmpty := by
  rw [Engine.reduce_eq, hsource]

theorem Engine.joinChunks_sp2_eq_none {i : Fin 546} (h : e.sp2[i] = none) : joinChunks e.sp2.toList = none := by
  rw [joinChunks_eq_none, ← h]
  exact List.getElem_mem _

/-- Settles O31: the source of each stage step is read before anything else. -/
theorem valuelessScratchpadFaults : Obligations.ValuelessScratchpadFaults := by
  unfold Obligations.ValuelessScratchpadFaults
  intro s
  refine ⟨fun hphase hsp1 => ?_, fun hphase hsp1 hchunk => ?_, fun hphase hbranch hsp1 => ?_,
    fun i hphase hbranch hsp2 => ?_⟩
  · exact stageStep_of_error hphase (Engine.revcopy_of_valueless hsp1)
  · exact stageStep_of_error hphase (Engine.revcopy_of_large_chunk hsp1 hchunk)
  · exact stageStep_of_error hphase (Engine.reduce_of_valueless (by rw [hbranch]; exact hsp1))
  · have hempty := Engine.joinChunks_sp2_eq_none hsp2
    exact stageStep_of_error hphase (Engine.reduce_of_valueless (by rw [hbranch]; exact hempty))

/-- HASH is accepted in IDLE and performs START there (R124). -/
theorem exec_hash_of_idle (hidle : s.engine.phase = .idle) :
    exec .hash s = .next ((s.setEngine (s.engine.start Config.params)).respond .ok) := by
  rw [exec_hash, State.command, performCommand, hidle]
  rfl

/-- START begins the run where the header is long enough (R101). -/
theorem exec_hash_of_long (hidle : s.engine.phase = .idle) (hlong : Config.params.hdrBytes ≤ s.engine.hdrLen.toNat) :
    exec .hash s = .next ((s.setEngine (s.engine.beginRun Config.params)).respond .ok) := by
  rw [exec_hash_of_idle hidle, Engine.start, if_neg (Nat.not_lt.mpr hlong)]

theorem commandAccepts_hash_of_ne_idle (hphase : p ≠ .idle) : commandAccepts .hash p = false := by
  cases p with
  | idle => exact absurd rfl hphase
  | _ => rfl

/-- Settles O23: HASH is accepted in IDLE only, and there START is the size guard and then the start of the run. -/
theorem hashStartsRun : Obligations.HashStartsRun := by
  unfold Obligations.HashStartsRun
  refine ⟨by decide, fun s => ⟨exec_hash_of_long, fun hidle hshort => ?_, fun hphase => ?_⟩⟩
  · rw [exec_hash_of_idle hidle, Engine.start, if_pos hshort]
    rfl
  · rw [exec_hash, State.command, performCommand, commandAccepts_hash_of_ne_idle hphase]
    rfl

theorem exec_expand_of_phase (hphase : s.engine.phase = .expand) :
    exec .expand s = .next (s.setEngine (s.engine.expand Config.params)) := by
  rw [exec_expand, stageStep, if_pos hphase]

/-- Settles O27: EXPAND is `Engine.storeExpansion` of the answer on the whole staged header. -/
theorem expandFillsScratchpad : Obligations.ExpandFillsScratchpad := by
  unfold Obligations.ExpandFillsScratchpad
  refine ⟨by decide, fun s hphase => ?_⟩
  rw [exec_expand_of_phase hphase, Engine.expand_eq]
  cases spongeHash Config.params s.engine.hdr (8 * Config.params.hdrBytes) Config.params.psz <;> rfl

theorem exec_revcopy_of_ok (hphase : s.engine.phase = .reorder) (hsp1 : s.engine.sp1 = some pad)
    (hlt : s.engine.chunk.toNat < 546) : exec .revcopy s = .next (s.setEngine (s.engine.copyChunk Config.params pad)) :=
  stageStep_of_ok hphase (Engine.revcopy_eq_ok.mpr ⟨pad, hsp1, hlt, rfl⟩)

/-- Settles O28: the copy is chunk `545 - CHUNK` of SP1, and only chunk CHUNK of SP2 is written. -/
theorem revcopyCopiesChunk : Obligations.RevcopyCopiesChunk := by
  unfold Obligations.RevcopyCopiesChunk
  refine ⟨by decide, fun s pad hphase hsp1 hpad hchunk => ?_⟩
  have hlt : s.engine.chunk.toNat < 546 := by omega
  have hcount : s.engine.chunk + 1 = BitVec.ofNat 10 (s.engine.chunk.toNat + 1) := by bv_omega
  refine ⟨(s.engine.copyChunk Config.params pad).sp2, chunkOf Config.params pad (545 - s.engine.chunk.toNat), ?_, ?_,
    chunkOf_length hpad (by omega), fun k hk => chunkOf_getElem? hk, fun i hi => ?_⟩
  · have hlast : s.engine.chunk.toNat + 1 = KPOW_MUL ↔ s.engine.chunk.toNat = 545 := by rw [KPOW_MUL]; omega
    simp only [exec_revcopy_of_ok hphase hsp1 hlt, Engine.copyChunk, hcount, hphase, hlast]
    rfl
  · rw [Vector.getElem?_eq_getElem hlt]
    exact congrArg some ((Engine.copyChunk_getElem pad ⟨_, hlt⟩).trans (if_pos rfl))
  · rw [Engine.copyChunk_getElem, if_neg hi.symm]

theorem exec_reduce_of_source (hphase : s.engine.phase = .reduce)
    (hsource : s.engine.source (if s.engine.branch then .sp2 else .sp1) = some pad) :
    exec .reduce s = .next (s.setEngine
      (s.engine.storeDigest (spongeHash Config.params pad (8 * Config.params.psz) 40))) :=
  stageStep_of_ok hphase (by rw [Engine.reduce_eq, hsource])

/-- Settles O29: the source is SP1 or SP2 by BRANCH, and REDUCE is `Engine.storeDigest` of the answer on it. -/
theorem reduceStoresDigest : Obligations.ReduceStoresDigest := by
  unfold Obligations.ReduceStoresDigest
  refine ⟨by decide, fun s pad hphase hsp1 hsp2 => ?_⟩
  have hsource : s.engine.source (if s.engine.branch then .sp2 else .sp1) = some pad := by
    rw [Engine.reduce_source]
    cases hb : s.engine.branch with
    | false => exact hsp1 hb
    | true => exact hsp2 hb
  rw [exec_reduce_of_source hphase hsource]
  cases spongeHash Config.params pad (8 * Config.params.psz) 40 <;> rfl

end Sys2Proof.Machine
end

section
/-! PROOFS. The version of a header and the branch it selects (40_pipeline.md R102). -/

namespace Sys2Proof.Machine

variable (b0 b1 b2 b3 : Byte) (v : Word)

theorem versionPattern_le_toNat : (versionPattern .le b0 b1 b2 b3).toNat = le32 b0 b1 b2 b3 := by
  have := b0.isLt
  have := b1.isLt
  have := b2.isLt
  have := b3.isLt
  rw [versionPattern, BitVec.toNat_ofNat, le32]
  omega

theorem versionPattern_be_toNat : (versionPattern .be b0 b1 b2 b3).toNat = be32 b0 b1 b2 b3 := by
  have := b0.isLt
  have := b1.isLt
  have := b2.isLt
  have := b3.isLt
  rw [versionPattern, BitVec.toNat_ofNat, be32]
  omega

theorem sint32_bounds : -2 ^ 31 ≤ sint32 v ∧ sint32 v ≤ 2 ^ 31 - 1 := by
  have := v.isLt
  unfold sint32
  split <;> omega

/-- The signed version is above 1 for a pattern from 2 up with the sign bit clear. -/
theorem branchOf_eq_true_iff : branchOf v = true ↔ 0x00000002 ≤ v.toNat ∧ v.toNat ≤ 0x7FFFFFFF := by
  have := v.isLt
  rw [branchOf, decide_eq_true_iff, sint32]
  split <;> omega

/-- Settles O50: the four bytes fit the word, and the comparison reads its bit 31 as the sign. -/
theorem versionPatternAndBranch : Obligations.VersionPatternAndBranch := by
  unfold Obligations.VersionPatternAndBranch
  exact ⟨fun b0 b1 b2 b3 => ⟨versionPattern_le_toNat b0 b1 b2 b3, versionPattern_be_toNat b0 b1 b2 b3⟩,
    fun _ _ _ _ _ _ => rfl, fun v => ⟨sint32_bounds v, branchOf_eq_true_iff v⟩⟩

end Sys2Proof.Machine
end

section
/-! PROOFS. The transitions of PHASE (40_pipeline.md R109). -/

namespace Sys2Proof.Machine

/-- Settles O32: effect by effect, the phase it is enabled in and the phase it leaves. -/
theorem phaseTransitions : Obligations.PhaseTransitions := by
  unfold Obligations.PhaseTransitions
  rintro s ⟨e', script, responses⟩ hstep P goes expansion reduction source
  have hsource {pad : List Byte} (hsrc : s.engine.source (if s.engine.branch then .sp2 else .sp1) = some pad) :
      source pad := (Engine.reduce_source _).symm.trans hsrc
  rcases step_effect hstep with ⟨hline, (hreset : e' = _)⟩ | ⟨i, u, hruns, (heff : Effect P i s.engine e')⟩ |
    (hsame : e' = s.engine)
  · subst hreset
    iterate 10 right
    exact ⟨rfl, hline⟩
  · cases heff with
    | stay | writeWorkLen | writeWork | illegal | reject | prep => exact .inl rfl
    | beginRun by_ idle long =>
      right
      exact .inl ⟨⟨idle, rfl⟩, long, hruns.writesCmd_of_performs by_⟩
    | shortHeader by_ idle short =>
      iterate 2 right
      exact .inl ⟨⟨idle, rfl⟩, short, hruns.writesCmd_of_performs by_⟩
    | expand _ ph r ans =>
      have hanswer : expansion.isSome = true := Option.isSome_iff_exists.mpr ⟨r, ans⟩
      cases hb : s.engine.branch with
      | false =>
        iterate 3 right
        exact .inl ⟨⟨ph, by simp [hb]⟩, hanswer, rfl⟩
      | true =>
        iterate 4 right
        exact .inl ⟨⟨ph, by simp [hb]⟩, hanswer, rfl⟩
    | expandFails _ ph ans =>
      iterate 5 right
      exact .inl ⟨⟨ph, rfl⟩, ans⟩
    | copyChunk _ ph pad _ _ =>
      by_cases hlast : s.engine.chunk.toNat + 1 = 546
      · iterate 6 right
        exact .inl ⟨⟨ph, if_pos hlast⟩, hlast⟩
      · exact .inl (if_neg hlast)
    | reduce _ ph pad src d ans =>
      iterate 7 right
      exact .inl ⟨⟨ph, rfl⟩, pad, hsource src, Option.isSome_iff_exists.mpr ⟨d, ans⟩⟩
    | reduceFails _ ph pad src ans =>
      iterate 8 right
      exact .inl ⟨⟨ph, rfl⟩, pad, hsource src, ans⟩
    | clr by_ quiet =>
      have hword := hruns.writesCmd_of_performs by_
      cases hphase : s.engine.phase with
      | idle => exact .inl rfl
      | done =>
        iterate 9 right
        exact .inl ⟨.inl ⟨hphase, rfl⟩, hword⟩
      | fault =>
        iterate 9 right
        exact .inl ⟨.inr ⟨hphase, rfl⟩, hword⟩
      | expand | reorder | reduce => rw [hphase] at quiet; cases quiet
  · exact .inl (by rw [hsame])

end Sys2Proof.Machine
end

section
/-! PROOFS. A run of the sequencer alone (40_pipeline.md R106, R108, R110, R112; log 7): how many steps it takes, that it
is busy until then, and where it ends. -/

namespace Sys2Proof.Machine

variable {P : Params} {H pad : List Byte} {i : Instr} {e e' : Engine} {s t u : State} {j k m n : Nat}

section Runs

theorem run_succ_of_step (h : step s = .next u) : run (k + 1) s = run k u := by
  simp [run, Host.Core.run, core, h]

theorem run_add_of_next (h : run m s = .next u) : run (m + n) s = run n u := by
  induction m generalizing s with
  | zero => cases h; rw [Nat.zero_add]
  | succ m ih =>
    obtain ⟨v, hstep, hrest⟩ := run_succ_eq_next.mp h
    rw [Nat.succ_add, run_succ_of_step hstep, ih hrest]

/-- The machine goes from `s` to `t` in `n` steps and is busy before each of them. -/
def BusyFor (n : Nat) (s t : State) : Prop :=
  run n s = .next t ∧ ∀ j < n, ∃ u, run j s = .next u ∧ u.engine.phase.busy = true

theorem BusyFor.refl (s : State) : BusyFor 0 s s := ⟨rfl, nofun⟩

theorem BusyFor.cons (hbusy : s.engine.phase.busy = true) (hstep : step s = .next u) (h : BusyFor n u t) :
    BusyFor (n + 1) s t := by
  refine ⟨(run_succ_of_step hstep).trans h.1, fun j hj => ?_⟩
  cases j with
  | zero => exact ⟨s, rfl, hbusy⟩
  | succ j => rw [run_succ_of_step hstep]; exact h.2 j (by omega)

theorem BusyFor.single (hbusy : s.engine.phase.busy = true) (hstep : step s = .next t) : BusyFor 1 s t :=
  .cons hbusy hstep (.refl t)

theorem BusyFor.trans (h : BusyFor m s u) (h' : BusyFor n u t) : BusyFor (m + n) s t := by
  refine ⟨(run_add_of_next h.1).trans h'.1, fun j hj => ?_⟩
  by_cases hlt : j < m
  · exact h.2 j hlt
  · rw [show j = m + (j - m) by omega, run_add_of_next h.1]
    exact h'.2 (j - m) (by omega)

end Runs

section Reorder

/-- In REORDER, or just past it, `j` chunks of SP1, which holds `pad`, have been copied. -/
structure Engine.Copied (P : Params) (pad : List Byte) (j : Nat) (e : Engine) : Prop where
  phase : e.phase = if j = 546 then .reduce else .reorder
  chunk : e.chunk.toNat = j
  sp1 : e.sp1 = some pad
  sp2 : e.Reversed P pad j

theorem Engine.Copied.none (hphase : e.phase = .reorder) (hchunk : e.chunk = 0) (hsp1 : e.sp1 = some pad) :
    e.Copied P pad 0 :=
  ⟨hphase, by rw [hchunk]; rfl, hsp1, nofun⟩

theorem Engine.Copied.copyChunk (h : e.Copied P pad j) (hlt : j < 546) : (e.copyChunk P pad).Copied P pad (j + 1) := by
  obtain ⟨hphase, rfl, hsp1, hsp2⟩ := h
  rw [if_neg hlt.ne] at hphase
  refine ⟨?_, Engine.copyChunk_chunk_toNat hlt, hsp1, hsp2.copyChunk⟩
  rw [Engine.copyChunk_phase, hphase]
  rfl

/-- The copies still to make, `m` of them, take `m` steps (R106). -/
theorem Engine.Copied.busyFor (h : s.engine.Copied Config.params pad j) (hscript : s.script = []) (hm : j + m = 546) :
    ∃ t, BusyFor m s t ∧ t.engine.Copied Config.params pad 546 := by
  induction m generalizing s j with
  | zero => exact ⟨s, .refl s, hm ▸ h⟩
  | succ m ih =>
    have hlt : j < 546 := by omega
    have hphase : s.engine.phase = .reorder := h.phase.trans (if_neg hlt.ne)
    have hstep : step s = .next (s.setEngine (s.engine.copyChunk Config.params pad)) :=
      (Runs.free .revcopy hscript (by rw [hphase]; rfl)).step.trans
        (exec_revcopy_of_ok hphase h.sp1 (h.chunk.trans_lt hlt))
    obtain ⟨t, hbusy, ht⟩ := ih (s := s.setEngine _) (h.copyChunk hlt) hscript (by omega)
    exact ⟨t, .cons (by rw [hphase]; rfl) hstep hbusy, ht⟩

/-- Settles O47: after 546 copies every chunk of SP2 is one of `REV(SP1)`. -/
theorem reorderLoopReverses : Obligations.ReorderLoopReverses := by
  unfold Obligations.ReorderLoopReverses
  intro s pad hphase hchunk hsp1 hpad hscript
  have hnone : s.engine.Copied Config.params pad 0 := .none hphase hchunk hsp1
  obtain ⟨t, hbusy, hcopied⟩ := hnone.busyFor hscript (Nat.zero_add 546)
  exact ⟨t, hbusy.1, hcopied.sp2.joinChunks hpad, hcopied.sp1, hcopied.chunk, hcopied.phase⟩

end Reorder

section Alone

/-- The sequencer runs alone on the staged header `H`, in a state that meets the invariant and with a correct run. -/
structure Alone (P : Params) (H : List Byte) (s : State) : Prop where
  script : s.script = []
  hdr : s.engine.hdr = H
  version : s.engine.version = versionOf P H
  branch : s.engine.branch = branchOf (versionOf P H)
  inv : s.engine.Inv P
  correct : s.engine.RunCorrect P

/-- While the engine is busy no effect changes the header of the run, its version or its branch. -/
theorem Effect.keeps_run_input (h : Effect P i e e') (hbusy : e.phase.busy = true) :
    e'.hdr = e.hdr ∧ e'.version = e.version ∧ e'.branch = e.branch := by
  cases h with
  | prep _ idle => rw [idle] at hbusy; cases hbusy
  | beginRun _ idle => rw [idle] at hbusy; cases hbusy
  | clr _ quiet => rw [quiet] at hbusy; cases hbusy
  | _ => exact ⟨rfl, rfl, rfl⟩

/-- The sequencer's turn leaves the script empty and the input of the run as it is. -/
theorem step_of_empty_script (hscript : s.script = []) (hstep : step s = .next t) : t.script = [] ∧
    t.engine.hdr = s.engine.hdr ∧ t.engine.version = s.engine.version ∧ t.engine.branch = s.engine.branch := by
  cases hd : decodeStage s.engine.phase.code with
  | ok i =>
    rw [(Runs.free i hscript hd).step] at hstep
    obtain ⟨heff, hkept⟩ := exec_effect hstep
    have hbusy : s.engine.phase.busy = true := by
      obtain ⟨h, _⟩ | ⟨h, _⟩ | ⟨h, _⟩ := decodeStage_code.mp hd <;> rw [h] <;> rfl
    exact ⟨hkept.trans hscript, heff.keeps_run_input hbusy⟩
  | error r =>
    simp only [step, fetch, hscript, sequencerTurn_of_quiet (decodeStage_code_error.mp ⟨r, hd⟩)] at hstep
    cases hstep
    exact ⟨hscript, rfl, rfl, rfl⟩

theorem Alone.step (h : Alone Config.params H s) (hstep : step s = .next t) : Alone Config.params H t := by
  obtain ⟨hscript, hhdr, hversion, hbranch⟩ := step_of_empty_script h.script hstep
  exact ⟨hscript, hhdr.trans h.hdr, hversion.trans h.version, hbranch.trans h.branch,
    stepKeepsInvariant s t h.inv hstep, stepKeepsRunCorrect s t h.inv h.correct hstep⟩

theorem Alone.busyFor (h : Alone Config.params H s) (hrun : BusyFor n s t) : Alone Config.params H t :=
  run_keeps (fun _ _ => Alone.step) h hrun.1

/-- The run is over: it has a digest, or the primitive failed. -/
def Engine.Ended (e : Engine) : Prop := e.phase = .done ∨ (e.phase = .fault ∧ e.err = .primitiveFailure)

/-- From REDUCE the run ends in a step. -/
theorem Alone.ends_of_reduce (h : Alone Config.params H s) (hphase : s.engine.phase = .reduce) :
    ∃ t, BusyFor 1 s t ∧ t.engine.Ended := by
  obtain ⟨pad, hpad⟩ := h.inv.reduce_source_isSome hphase
  have hstep := (Runs.free .reduce h.script (by rw [hphase]; rfl)).step.trans (exec_reduce_of_source hphase hpad)
  refine ⟨_, .single (by rw [hphase]; rfl) hstep, ?_⟩
  cases spongeHash Config.params pad (8 * Config.params.psz) 40 with
  | none => exact .inr ⟨rfl, rfl⟩
  | some d => exact .inl rfl

/-- From REORDER, nothing copied yet, the run ends in 547 steps. -/
theorem Alone.ends_of_reorder (h : Alone Config.params H s) (hcopied : s.engine.Copied Config.params pad 0) :
    ∃ t, BusyFor 547 s t ∧ t.engine.Ended := by
  obtain ⟨u, hcopies, hall⟩ := hcopied.busyFor h.script (Nat.zero_add 546)
  obtain ⟨t, hreduce, hended⟩ := (h.busyFor hcopies).ends_of_reduce hall.phase
  exact ⟨t, hcopies.trans hreduce, hended⟩

/-- The steps of the sequencer in a run of the header `H` (R112). -/
def runLength (P : Params) (H : List Byte) : Nat :=
  if spongeHash P H (8 * P.hdrBytes) P.psz = none then 1 else if 1 < sint32 (versionOf P H) then 548 else 2

theorem runLength_of_expansion {r : Vector Byte P.psz} (h : spongeHash P H (8 * P.hdrBytes) P.psz = some r) :
    runLength P H = if branchOf (versionOf P H) then 548 else 2 := by
  simp [runLength, h, branchOf]

theorem Alone.ends_of_expand (h : Alone Config.params H s) (hphase : s.engine.phase = .expand) :
    ∃ t, BusyFor (runLength Config.params H) s t ∧ t.engine.Ended := by
  have hbusy : s.engine.phase.busy = true := by rw [hphase]; rfl
  have hstep := (Runs.free .expand h.script (by rw [hphase]; rfl)).step.trans (exec_expand_of_phase hphase)
  rcases Engine.expand_cases (P := Config.params) (e := s.engine) with ⟨hfail, he⟩ | ⟨r, hanswer, he⟩ <;>
    rw [he] at hstep
  · rw [h.hdr] at hfail
    rw [runLength, if_pos hfail]
    exact ⟨_, .single hbusy hstep, .inr ⟨rfl, rfl⟩⟩
  · have hnext := h.step hstep
    rw [h.hdr] at hanswer
    rw [runLength_of_expansion hanswer, ← h.branch]
    cases hb : s.engine.branch with
    | false =>
      obtain ⟨t, hreduce, hended⟩ := hnext.ends_of_reduce (by simp [hb])
      exact ⟨t, .cons hbusy hstep hreduce, hended⟩
    | true =>
      obtain ⟨t, hreorder, hended⟩ :=
        hnext.ends_of_reorder (.none (by simp [hb]) (h.inv.expand_chunk hphase) rfl)
      exact ⟨t, .cons hbusy hstep hreorder, hended⟩

end Alone

/-- The line HASH begins the run where the header is long enough (R101). -/
theorem step_of_lineHash {rest : List ScriptLine} (hscript : s.script = lineHash :: rest)
    (hidle : s.engine.phase = .idle) (hlong : Config.params.hdrBytes ≤ s.engine.hdrLen.toNat) :
    step s = .next (((s.setScript rest).setEngine (s.engine.beginRun Config.params)).respond .ok) := by
  have dec : decode (encode (.wr32 0x00000 2)) = .ok (.wr32 0x00000 2) := decodeEncodeAgree _ rfl
  calc step s = exec (.wr32 0x00000 2) (s.setScript rest) := (Runs.request _ _ rest _ hscript dec).step
    _ = exec .hash (s.setScript rest) := exec_wr32_cmd (c := .hash) (by decide) _
    _ = _ := exec_hash_of_long hidle hlong

/-- Settles O46: HASH begins the run, the sequencer ends it, and where it ends the digest or the failure is that of a
correct run. -/
theorem runComputesKpow : Obligations.RunComputesKpow := by
  unfold Obligations.RunComputesKpow
  intro s hinv hidle hlong hscript P H n
  have hstep := step_of_lineHash hscript hidle hlong
  have hbegun : Alone P H (((s.setScript []).setEngine (s.engine.beginRun P)).respond .ok) :=
    ⟨rfl, rfl, rfl, rfl, stepKeepsInvariant s _ hinv hstep, .beginRun s.engine⟩
  obtain ⟨t, hrun, hended⟩ := hbegun.ends_of_expand rfl
  have ht : Alone P H t := hbegun.busyFor hrun
  refine ⟨⟨t, ?_, ht.version, ?_, ?_⟩, fun j hj => ?_⟩
  · rw [Nat.add_comm, run_succ_of_step hstep]
    exact hrun.1
  · rw [ht.branch, branchOf, decide_eq_true_iff]
  · obtain hdone | ⟨hfault, herr⟩ := hended
    · rw [← ht.hdr, ht.correct.done hdone]
      exact ⟨hdone, rfl⟩
    · rw [← ht.hdr, ht.correct.failed hfault herr]
      refine ⟨hfault, herr, fun k => ?_⟩
      rw [ht.inv.r41.item3 (by simp [hfault])]
      exact zeroDigest_getElem k
  · rw [Nat.add_comm, run_succ_of_step hstep]
    exact hrun.2 j hj

end Sys2Proof.Machine
end

section
/-! PROOFS. The requests RD8, RD32, WR8 and WR32, address by address (41_host_commands.md R127 to R130). -/

namespace Sys2Proof

variable {op : BitVec 3} {addr : Addr} {d : Word} {i : Instr}

/-- All that a header made of bits 21:19 and an address can decode to (30_encoding.md R84). -/
theorem decode_append_eq_ok : decode (.request (op ++ addr) d) = .ok i ↔
    (op = 0b000 ∧ i = .rd8 addr) ∨ (op = 0b010 ∧ i = .rd32 addr) ∨
    (op = 0b100 ∧ i = .wr8 addr d) ∨ (op = 0b110 ∧ i = .wr32 addr d) := by
  have hop : (op ++ addr).extractLsb' 19 3 = op := BitVec.extractLsb'_append_eq_left
  have haddr : (op ++ addr).extractLsb' 0 19 = addr := BitVec.extractLsb'_append_eq_right
  have hdec := decodeRequest_eq_ok_opcode (header := op ++ addr) (d := d) (i := i)
  rwa [hop, haddr] at hdec

theorem decode_rd8 (addr : Addr) (d : Word) : decode (.request (0#1 ++ 0b00#2 ++ addr) d) = .ok (.rd8 addr) :=
  decode_append_eq_ok.mpr (.inl ⟨rfl, rfl⟩)

theorem decode_rd32 (addr : Addr) (d : Word) : decode (.request (0#1 ++ 0b10#2 ++ addr) d) = .ok (.rd32 addr) :=
  decode_append_eq_ok.mpr (.inr (.inl ⟨rfl, rfl⟩))

theorem decode_wr8 (addr : Addr) (d : Word) : decode (.request (1#1 ++ 0b00#2 ++ addr) d) = .ok (.wr8 addr d) :=
  decode_append_eq_ok.mpr (.inr (.inr (.inl ⟨rfl, rfl⟩)))

theorem decode_wr32 (addr : Addr) (d : Word) : decode (.request (1#1 ++ 0b10#2 ++ addr) d) = .ok (.wr32 addr d) :=
  decode_append_eq_ok.mpr (.inr (.inr (.inr ⟨rfl, rfl⟩)))

end Sys2Proof

namespace Sys2Proof.Machine

variable {P : Params} {e : Engine} {s : State} {addr : Addr} {b : Byte} {v : Word} {k : Fin 40}

section ByteAccesses

theorem memRead8_digest (hk : digestIndex addr = some k) : memRead8 P e addr = .ok8 e.digest[k] := by
  rw [memRead8, hk]

theorem memRead8_outside (h : ¬InWindows P addr) : memRead8 P e addr = .buserr := by
  obtain ⟨hdigest, hwork⟩ := not_inWindows_iff.mp h
  rw [memRead8, digestIndex_eq_none.mpr hdigest]
  exact if_neg (mt inWorkWindow_iff.mp hwork)

theorem memWrite8_digest (hk : digestIndex addr = some k) : memWrite8 P addr b s = s.respond .ok := by
  rw [memWrite8, hk]

theorem memWrite8_outside (h : ¬InWindows P addr) : memWrite8 P addr b s = s.respond .buserr := by
  obtain ⟨hdigest, hwork⟩ := not_inWindows_iff.mp h
  rw [memWrite8, digestIndex_eq_none.mpr hdigest]
  exact if_neg (mt inWorkWindow_iff.mp hwork)

/-- Every address of the DIGEST window reaches a byte of DIGEST (20_memory.md R51). -/
theorem exists_digestIndex (h : 0x00040 ≤ addr.toNat ∧ addr.toNat ≤ 0x00067) : ∃ k, digestIndex addr = some k :=
  ⟨_, dif_pos h⟩

/-- Settles O14: the address is in one of the two windows or in none; and DIGEST is zero before a run has ended. -/
theorem rd8ReadsWindow : Obligations.Rd8ReadsWindow := by
  unfold Obligations.Rd8ReadsWindow
  intro addr s
  rw [exec_rd8]
  refine ⟨decode_rd8 addr, fun k haddr => ?_, fun hwork => ?_, fun hout => ?_, fun h41 hphase hdigest => ?_⟩
  · rw [memRead8_digest (digestIndex_eq_some.mpr haddr)]
    rfl
  · rw [memRead8_work (inWorkWindow_iff.mpr hwork)]
    rfl
  · rw [memRead8_outside (not_or.mpr hout)]
    rfl
  · obtain ⟨k, hk⟩ := exists_digestIndex hdigest
    rw [memRead8_digest hk, h41.item3 hphase, zeroDigest_getElem]
    rfl

/-- Settles O15: in the WORK window the memory is `Memory.write` of the byte; elsewhere only the response is new. -/
theorem wr8StoresByte : Obligations.Wr8StoresByte := by
  unfold Obligations.Wr8StoresByte
  intro addr wdata s
  rw [exec_wr8]
  refine ⟨decode_wr8 addr wdata, fun hwork => ?_, fun hdigest => ?_, fun hout => ?_⟩
  · rw [memWrite8_work (inWorkWindow_iff.mpr hwork)]
    exact ⟨_, rfl, by rw [Memory.read_write, if_pos rfl], fun a ha => by rw [Memory.read_write, if_neg ha.symm]⟩
  · obtain ⟨k, hk⟩ := exists_digestIndex hdigest
    rw [memWrite8_digest hk]
    rfl
  · rw [memWrite8_outside (not_or.mpr hout)]
    rfl

end ByteAccesses

section WordAccesses

theorem memRead32_unmapped (h : registerAt addr = none) : memRead32 e addr = .buserr := by
  rw [memRead32, h]

theorem memWrite32_unmapped (h : registerAt addr = none) : memWrite32 P addr v s = s.respond .buserr := by
  rw [memWrite32, h]

theorem registerAt_of_ne (h : addr ≠ 0x00000 ∧ addr ≠ 0x00004 ∧ addr ≠ 0x00008 ∧ addr ≠ 0x0000C ∧ addr ≠ 0x00010) :
    registerAt addr = none :=
  registerAt_eq_none_iff_not_mem.mpr (by simpa using h)

/-- Settles O13: the address is one of the five registers, each read by its own name, or none. -/
theorem rd32ReadsRegister : Obligations.Rd32ReadsRegister := by
  unfold Obligations.Rd32ReadsRegister
  refine fun addr s => ⟨decode_rd32 addr, ?_⟩
  rw [exec_rd32]
  split_ifs with hcmd hstatus hworkLen hhdrLen hversion
  · rw [hcmd]; rfl
  · rw [hstatus]; rfl
  · rw [hworkLen]; rfl
  · rw [hhdrLen]; rfl
  · rw [hversion]; rfl
  · rw [memRead32_unmapped (registerAt_of_ne ⟨hcmd, hstatus, hworkLen, hhdrLen, hversion⟩)]
    rfl

/-- Settles O16: at CMD the write is the command it decodes to, at the other addresses it is as `memWrite32` says. -/
theorem wr32WritesRegister : Obligations.Wr32WritesRegister := by
  unfold Obligations.Wr32WritesRegister
  intro addr d s
  refine ⟨decode_wr32 addr d, fun hcmd => ?_, fun hworkLen => ?_, fun hreadOnly => ?_, fun hunmapped => ?_⟩
  · rw [hcmd]
    exact ⟨fun c hc => exec_wr32_cmd hc s, fun r hr => exec_wr32_cmd_of_illegal hr s⟩
  · rw [hworkLen]; rfl
  · obtain rfl | rfl | rfl := hreadOnly <;> rfl
  · rw [exec_wr32, memWrite32_unmapped (registerAt_of_ne hunmapped)]
    rfl

end WordAccesses

end Sys2Proof.Machine
end

section
/-! PROOFS. The commands NOP, PREP and CLR, and which phase accepts which command (41_host_commands.md R120 to R126). -/

namespace Sys2Proof.Machine

variable {P : Params} {i : Instr} {e e' : Engine} {s : State} {c : Command} {w : Word} {p : Phase}

section Commands

theorem exec_command (c : Command) (s : State) : exec c.instr s = .next (s.command Config.params c) := by
  cases c <;> rfl

theorem exec_of_accepted (h : commandAccepts c s.engine.phase = true) :
    exec c.instr s = .next ((s.setEngine (commandEffect Config.params c s.engine)).respond .ok) := by
  rw [exec_command, State.command, performCommand, if_pos h]

theorem exec_of_rejected (h : commandAccepts c s.engine.phase = false) :
    exec c.instr s = .next ((s.setEngine s.engine.reject).respond .ok) := by
  rw [exec_command, State.command, performCommand, h]
  rfl

/-- Settles O17: a write of CMD is the command its word decodes to, and `exec_of_rejected` where the phase rejects it. -/
theorem cmdWritePerformsCommand : Obligations.CmdWritePerformsCommand := by
  unfold Obligations.CmdWritePerformsCommand
  intro w s
  exact ⟨fun r hr => exec_wr32_cmd_of_illegal hr s,
    fun c hc hrejected => (exec_wr32_cmd hc s).trans (exec_of_rejected hrejected),
    fun c hc _ => exec_wr32_cmd hc s,
    _, exec_wr32 s 0x00000 w, State.commandWord_responses w s⟩

/-- Settles O21: NOP is accepted in every phase, and its effect is none. -/
theorem nopChangesNothing : Obligations.NopChangesNothing := by
  unfold Obligations.NopChangesNothing
  exact ⟨by decide, fun s => exec_of_accepted (c := .nop) rfl⟩

theorem commandAccepts_prep_of_ne_idle (hphase : p ≠ .idle) : commandAccepts .prep p = false := by
  cases p with
  | idle => exact absurd rfl hphase
  | _ => rfl

/-- Settles O22: PREP is accepted in IDLE only, and there HDR becomes the bytes of the window. -/
theorem prepStagesHeader : Obligations.PrepStagesHeader := by
  unfold Obligations.PrepStagesHeader
  refine ⟨by decide, fun s => ⟨fun hidle => ?_, fun hphase => ?_⟩⟩
  · have haccepts : commandAccepts .prep s.engine.phase = true := by rw [hidle]; rfl
    exact ⟨windowBytes Config.params s.engine.work, exec_of_accepted haccepts, windowBytes_length,
      fun k hk => windowBytes_getElem? hk⟩
  · exact exec_of_rejected (commandAccepts_prep_of_ne_idle hphase)

/-- Settles O24: CLR is accepted exactly where the engine is not busy. -/
theorem clrReturnsToIdle : Obligations.ClrReturnsToIdle := by
  unfold Obligations.ClrReturnsToIdle
  refine ⟨by decide, fun s => ⟨fun hphase => ?_, fun hphase => ?_⟩⟩
  · have haccepts : commandAccepts .clr s.engine.phase = true := by
      obtain h | h | h := hphase <;> rw [h] <;> rfl
    exact exec_of_accepted haccepts
  · have hbusy : s.engine.phase.busy = true := by
      obtain h | h | h := hphase <;> rw [h] <;> rfl
    exact exec_of_rejected (commandAccepts_of_busy .clr hbusy)

end Commands

section Acceptance

/-- The rows of the acceptance table of R126 that accept, by the command's word. -/
def TableAccepts (w : Word) (p : Phase) : Prop :=
  w = 0 ∨ (w = 1 ∧ p = .idle) ∨ (w = 2 ∧ p = .idle) ∨ (w = 3 ∧ (p = .idle ∨ p = .done ∨ p = .fault))

theorem commandAccepts_iff_table : commandAccepts c p = true ↔ TableAccepts c.word p := by
  unfold TableAccepts
  cases c <;> cases p <;> decide

/-- The table accepts exactly the words of the commands that the phase accepts. -/
theorem tableAccepts_iff : TableAccepts w p ↔ ∃ c, decodeCommand w = .ok c ∧ commandAccepts c p = true := by
  constructor
  · intro h
    have hword : ∃ c : Command, w = c.word := by
      obtain rfl | ⟨rfl, _⟩ | ⟨rfl, _⟩ | ⟨rfl, _⟩ := h
      · exact ⟨.nop, rfl⟩
      · exact ⟨.prep, rfl⟩
      · exact ⟨.hash, rfl⟩
      · exact ⟨.clr, rfl⟩
    obtain ⟨c, rfl⟩ := hword
    exact ⟨c, c.decodeCommand_word, commandAccepts_iff_table.mpr h⟩
  · rintro ⟨c, hc, haccepts⟩
    rw [decodeCommand_eq_ok.mp hc]
    exact commandAccepts_iff_table.mp haccepts

theorem exec_wr32_cmd_of_not_tableAccepts (h : ¬TableAccepts w s.engine.phase) :
    exec (.wr32 0x00000 w) s = .next ((s.setEngine s.engine.reject).respond .ok) := by
  cases hdec : decodeCommand w with
  | error r => exact exec_wr32_cmd_of_illegal hdec s
  | ok c =>
    have hrejected : commandAccepts c s.engine.phase = false :=
      Bool.eq_false_iff.mpr fun haccepts => h (tableAccepts_iff.mpr ⟨c, hdec, haccepts⟩)
    exact (exec_wr32_cmd hdec s).trans (exec_of_rejected hrejected)

/-- Of the effects CLR alone leaves DONE and FAULT, for IDLE. -/
theorem Effect.phase_of_ended (h : Effect P i e e') (hended : e.phase = .done ∨ e.phase = .fault) :
    e'.phase = e.phase ∨ (Performs i .clr ∧ e'.phase = .idle) := by
  cases h with
  | stay | writeWorkLen | writeWork | illegal | reject | prep => exact .inl rfl
  | clr by_ => exact .inr ⟨by_, rfl⟩
  | shortHeader _ hphase | beginRun _ hphase | expandFails _ hphase | expand _ hphase | copyChunk _ hphase
  | reduceFails _ hphase | reduce _ hphase => simp [hphase] at hended

/-- Settles O25: the table's words are those of the commands the phase accepts, and of the effects of an ended engine only
CLR changes PHASE. -/
theorem acceptanceTable : Obligations.AcceptanceTable := by
  unfold Obligations.AcceptanceTable
  refine ⟨fun w s => ⟨exec_wr32_cmd_of_not_tableAccepts, fun haccepts => ?_⟩, fun s t hstep hended => ?_⟩
  · obtain ⟨c, hdec, haccepts⟩ := tableAccepts_iff.mp haccepts
    exact ⟨c, hdec, (exec_wr32_cmd hdec s).trans (exec_of_accepted haccepts)⟩
  · rcases step_effect hstep with ⟨hline, hreset⟩ | ⟨i, u, hruns, heff⟩ | hsame
    · exact .inr ⟨by rw [hreset, Engine.reset_phase], .inl hline⟩
    · exact (heff.phase_of_ended hended).imp_right fun ⟨hclr, hidle⟩ =>
        ⟨hidle, .inr (hruns.writesCmd_of_performs hclr)⟩
    · exact .inl (by rw [hsame])

end Acceptance

section Busy

theorem Safe.exists_next {o : Host.Outcome State Fault Refusal} (h : Safe o) : ∃ t, o = .next t := by
  cases o with
  | next t => exact ⟨t, rfl⟩
  | fault | refused => cases h

/-- What a host request can do to a busy engine: a data write, or the rejection of its command (R126, 20_memory.md R64). -/
theorem Effect.of_request_of_busy {header : BitVec 22} {d : Word} (h : Effect P i e e')
    (dec : decodeRequest header d = .ok i) (hbusy : e.phase.busy = true) :
    e' = { e with ill := e'.ill, work := e'.work, workLen := e'.workLen } := by
  cases h with
  | stay | writeWorkLen | writeWork | illegal | reject => rfl
  | prep _ idle | shortHeader _ idle | beginRun _ idle => rw [idle] at hbusy; cases hbusy
  | clr _ quiet => rw [quiet] at hbusy; cases hbusy
  | expandFails by_ | expand by_ | copyChunk by_ | reduceFails by_ | reduce by_ =>
    simp [by_, decodeRequest_eq_ok_opcode] at dec

/-- Settles O26: a request that decodes has one of the effects a busy engine admits, any other is a bus error. -/
theorem busyHostCannotTouchRun : Obligations.BusyHostCannotTouchRun := by
  unfold Obligations.BusyHostCannotTouchRun
  intro s header d rest line hbusy
  cases dec : decodeRequest header d with
  | error r => exact ⟨_, step_of_undecoded line dec, rfl⟩
  | ok i =>
    obtain ⟨t, hexec⟩ := (exec_safe_of_request dec (s.setScript rest)).exists_next
    exact ⟨t, (Runs.request header d rest i line dec).step.trans hexec,
      (exec_effect hexec).1.of_request_of_busy dec hbusy⟩

end Busy

end Sys2Proof.Machine
end

section
/-! PROOFS. The SpongeHash primitive interface: what an answer depends on and the fields of the two requests
(42_sponge_primitive.md R141, R143, R144). -/

namespace Sys2Proof.Machine

/-- Byte `k` is among the first `ceil(in_bits / 8)` exactly when its first bit is among the `in_bits` (R141). -/
theorem lt_inputBytes_iff {inBits k : Nat} : k < (inBits + 7) / 8 ↔ 8 * k < inBits := by omega

/-- Inputs that agree on the bytes of the first `in_bits` bits have the same absorbed prefix. -/
theorem take_inputBytes_eq {inp inp' : List Byte} {inBits : Nat}
    (hagree : ∀ k, 8 * k < inBits → inp[k]? = inp'[k]?) :
    inp.take ((inBits + 7) / 8) = inp'.take ((inBits + 7) / 8) := by
  apply List.ext_getElem?
  intro k
  rw [List.getElem?_take, List.getElem?_take]
  split
  case isTrue hk => exact hagree k (lt_inputBytes_iff.mp hk)
  case isFalse => rfl

/-- An input of no more than `ceil(in_bits / 8)` bytes is absorbed whole. -/
theorem spongeHash_of_length_le {inp : List Byte} {inBits : Nat} (P : Params) (outBytes : Nat)
    (hlen : inp.length ≤ (inBits + 7) / 8) : spongeHash P inp inBits outBytes = P.primitive inp inBits outBytes := by
  unfold spongeHash
  rw [List.take_of_length_le hlen]

/-- Settles O53: SPONGE hands its primitive the absorbed prefix and nothing else of the input. -/
theorem spongeSeesOnlyItsInput : Obligations.SpongeSeesOnlyItsInput := by
  unfold Obligations.SpongeSeesOnlyItsInput
  intro P inp inp' inBits outBytes
  refine ⟨fun hagree => ?_, fun hlen => spongeHash_of_length_le P outBytes hlen.le⟩
  unfold spongeHash
  rw [take_inputBytes_eq hagree]

/-- Settles O55: the lengths stay below the widths of their fields by the bounds of the parameters (00_scope.md R11). -/
theorem spongeRequestFields : Obligations.SpongeRequestFields := by
  unfold Obligations.SpongeRequestFields
  intro P
  refine ⟨⟨rfl, expandRequest_inBits P, rfl, ?_⟩, fun branch => ?_⟩
  · exact (expandRequest_outBytes P).trans P.psz_eq
  · exact ⟨reduceRequest_src P branch, reduceRequest_inBits P branch, rfl, reduceRequest_outBytes P branch⟩

end Sys2Proof.Machine
end

section
/-! PROOFS. Fault entry (60_exceptions.md R154): the effects that enter FAULT, each of them `Engine.raise`. -/

namespace Sys2Proof.Machine

variable {P : Params} {i : Instr} {e e' : Engine}

/-- Of the effects only the guard of START and a primitive that fails enter FAULT, each with its own code (R154). -/
theorem Effect.eq_raise_of_fault (h : Effect P i e e') (hne : e.phase ≠ .fault) (hfault : e'.phase = .fault) :
    ∃ c, e' = e.raise c ∧
      ((e.phase = .idle ∧ c = .invalidInput ∧ e.hdrLen.toNat < P.hdrBytes) ∨
       ((e.phase = .expand ∨ e.phase = .reduce) ∧ c = .primitiveFailure)) := by
  cases h with
  | shortHeader _ idle short => exact ⟨_, rfl, .inl ⟨idle, rfl, short⟩⟩
  | expandFails _ ph => exact ⟨_, rfl, .inr ⟨.inl ph, rfl⟩⟩
  | reduceFails _ ph => exact ⟨_, rfl, .inr ⟨.inr ph, rfl⟩⟩
  | stay | writeWorkLen | writeWork | illegal | reject | prep => exact absurd hfault hne
  | beginRun | clr | reduce => cases hfault
  | expand => cases hb : e.branch <;> simp [hb] at hfault
  | copyChunk _ ph =>
    rw [Engine.copyChunk_phase, ph] at hfault
    split at hfault <;> cases hfault

/-- Settles O33: the step is an effect that enters FAULT, so it is `Engine.raise` from a phase in which the invariant has
DIGEST zero; and the engine in FAULT is quiet. -/
theorem faultEntryIsPrecise : Obligations.FaultEntryIsPrecise := by
  unfold Obligations.FaultEntryIsPrecise
  refine ⟨fun s t hinv hstep hne hfault => ?_, fun s rest hphase line =>
    (quietEngineWaits s (.inr (.inr hphase))).1 rest line⟩
  rcases step_effect hstep with ⟨_, hreset⟩ | ⟨i, u, _, heff⟩ | hsame
  · rw [hreset] at hfault
    cases hfault
  · obtain ⟨c, he, hsource⟩ := heff.eq_raise_of_fault hne hfault
    have hdone : s.engine.phase ≠ .done := by
      obtain ⟨h, -⟩ | ⟨h | h, -⟩ := hsource <;> simp [h]
    rw [he]
    refine ⟨rfl, fun k => ?_, ?_⟩
    · rw [Engine.raise_digest, hinv.r41.item3 hdone, zeroDigest_getElem]
    · obtain ⟨hidle, rfl, hshort⟩ | ⟨hstage, rfl⟩ := hsource
      · exact .inl ⟨hidle, rfl, hshort⟩
      · exact .inr ⟨hstage, rfl⟩
  · exact absurd (hsame ▸ hfault) hne

end Sys2Proof.Machine
end
